-- ==== Sys2Proof/Word.lean ====
section
/-! DEFINITION. The word of the machine (spec/00_scope.md rules R4 and R5) and the names of its registers
(spec/10_state.md rule R10). -/

namespace Sys2Proof

/-- A word: an unsigned 16-bit integer, the one unit of data and of addresses (rule R4). -/
abbrev Word := BitVec 16

/-- An exact non-negative result reduced modulo 2^16 (rule R5). -/
abbrev Word.ofExact (n : Nat) : Word := BitVec.ofNat 16 n

/-- The seven registers, in the order of their ordinals 0 to 6 (rule R10). -/
inductive Reg where
  | r0 | r1 | r2 | r3 | sb | sp | pc
deriving DecidableEq, Repr

/-- The sixteen operations, in the order of the executor's table (rule R55). -/
inductive Op where
  | mov | add | sub | mul | div | rem | not | and | or | xor | eq | le | leq | jnz | inp | out
deriving DecidableEq, Repr

/-- An operand as it is written (rules R52 and R60): a register, `#v`, `[register]`, or the pointer literal `[#v]`. -/
inductive Operand where
  | reg (r : Reg)
  | imm (v : Word)
  | derefReg (r : Reg)
  | derefImm (v : Word)
deriving DecidableEq, Repr

end Sys2Proof
end

