-- ==== Sys2Proof/Config.lean ====
section
/-! DEFINITION. The implementation parameters of spec/00_scope.md rule R29 and the free values. A row of R29 marked
*fixed* is a constant here; a *decided* row is a field of `Config`, with the value the spec decides in
`Config.standard`; `N_IN` and `N_OUT` are the port groups of the state; `MEM_INIT` is the free value `Config.memInit`. -/

namespace Sys2Proof

/-- What a write to an immediate operand does (parameter `IMM_WRITE`, rules R77 and R125, decision D4). -/
inductive ImmWrite where
  | discard
  | fault
deriving DecidableEq, Repr

/-- What the hardware does where the source leaves a behaviour undefined (parameters `ILLEGAL_OPCODE` and `DIV_ZERO`,
decisions D2 and D3): the spec gives the one choice, a fault. -/
inductive UndefinedChoice where
  | fault
deriving DecidableEq, Repr

/-- The decided parameters of the machine. Plain data, held in the state; no step changes it (log entry 15). -/
structure Config where
  /-- `OPCODE_MAP`: the operation that each opcode-field value selects, value 0 first (decision D1). -/
  opcodeMap : List Op
  immWrite : ImmWrite
  illegalOpcode : UndefinedChoice
  divZero : UndefinedChoice
deriving DecidableEq, Repr

/-- The opcode numbers of rule R55: MOV is 0x00 and OUT is 0x0F. DESIGN CHOICE of the spec (D1), log entry 1. -/
def Config.tableOrder : List Op :=
  [.mov, .add, .sub, .mul, .div, .rem, .not, .and, .or, .xor, .eq, .le, .leq, .jnz, .inp, .out]

/-- The configuration the spec decides (rule R29). -/
def Config.standard : Config :=
  { opcodeMap := Config.tableOrder, immWrite := .discard, illegalOpcode := .fault, divZero := .fault }

/-- `MEM_WORDS`: addresses 0x0000 to 0xFFFF. -/
def memWords : Nat := 65536

/-- `HALT_PC`: the halt sentinel. -/
def haltPc : Word := 0xFFFF#16

/-- `RESET_PC`: the program counter after load. -/
def resetPc : Word := 0x0000#16

/-- `LOAD_BASE`: the address of the first word of the program image. -/
def loadBase : Nat := 0

/-- `MEM_INIT`: the word that a cell holds which neither a load nor a program has written. A FREE VALUE: the spec
assumes nothing about it (rule R22, decision D5), log entry 2. -/
opaque Config.memInit : Word → Word

/-- The word an input channel delivers when the environment has offered none beforehand, for the number of such draws
so far and the channel. A FREE VALUE: any of the 65536 words (rule R18, decision D8), log entry 6. -/
opaque Config.inPort : Nat → Word → Word

end Sys2Proof
end

