-- ==== Sys2Proof/Syntax.lean ====
section
/-! DEFINITION. The instructions: one constructor per row of spec/opcode_table.json (spec/30_encoding.md rule R55).
Every instruction has exactly two operands, operand 1 first (rule R50). -/

namespace Sys2Proof

/-- The instruction set. `o1` is the destination (dst, op1) and `o2` the source (src, op2) in the spec's words. -/
inductive Instr where
  | mov (o1 o2 : Operand)
  | add (o1 o2 : Operand)
  | sub (o1 o2 : Operand)
  | mul (o1 o2 : Operand)
  | div (o1 o2 : Operand)
  | rem (o1 o2 : Operand)
  | not (o1 o2 : Operand)
  | and (o1 o2 : Operand)
  | or (o1 o2 : Operand)
  | xor (o1 o2 : Operand)
  | eq (o1 o2 : Operand)
  | le (o1 o2 : Operand)
  | leq (o1 o2 : Operand)
  | jnz (o1 o2 : Operand)
  | inp (o1 o2 : Operand)
  | out (o1 o2 : Operand)
deriving DecidableEq, Repr

/-- The operation of an instruction. -/
def Instr.op : Instr → Op
  | .mov _ _ => .mov
  | .add _ _ => .add
  | .sub _ _ => .sub
  | .mul _ _ => .mul
  | .div _ _ => .div
  | .rem _ _ => .rem
  | .not _ _ => .not
  | .and _ _ => .and
  | .or _ _ => .or
  | .xor _ _ => .xor
  | .eq _ _ => .eq
  | .le _ _ => .le
  | .leq _ _ => .leq
  | .jnz _ _ => .jnz
  | .inp _ _ => .inp
  | .out _ _ => .out

/-- The instruction of an operation and its two operands. -/
def Op.instr (op : Op) (o1 o2 : Operand) : Instr :=
  match op with
  | .mov => .mov o1 o2
  | .add => .add o1 o2
  | .sub => .sub o1 o2
  | .mul => .mul o1 o2
  | .div => .div o1 o2
  | .rem => .rem o1 o2
  | .not => .not o1 o2
  | .and => .and o1 o2
  | .or => .or o1 o2
  | .xor => .xor o1 o2
  | .eq => .eq o1 o2
  | .le => .le o1 o2
  | .leq => .leq o1 o2
  | .jnz => .jnz o1 o2
  | .inp => .inp o1 o2
  | .out => .out o1 o2

/-- The two operands of an instruction, operand 1 first. -/
def Instr.operands : Instr → Operand × Operand
  | .mov a b => (a, b)
  | .add a b => (a, b)
  | .sub a b => (a, b)
  | .mul a b => (a, b)
  | .div a b => (a, b)
  | .rem a b => (a, b)
  | .not a b => (a, b)
  | .and a b => (a, b)
  | .or a b => (a, b)
  | .xor a b => (a, b)
  | .eq a b => (a, b)
  | .le a b => (a, b)
  | .leq a b => (a, b)
  | .jnz a b => (a, b)
  | .inp a b => (a, b)
  | .out a b => (a, b)

/-- Operand 1. -/
abbrev Instr.op1 (i : Instr) : Operand := i.operands.1

/-- Operand 2. -/
abbrev Instr.op2 (i : Instr) : Operand := i.operands.2

end Sys2Proof
end

