-- ==== Sys2Proof/WellFormed.lean ====
section
/-! DEFINITION. The checks on terms: an opcode map is a numbering of the sixteen operations (spec/92_eei_decisions.md
D1), an instruction has an encoding under it, and a program image fits the memory (spec/70_reset_and_hazards.md rule
R141). Every operand form is allowed in both positions of every instruction (spec/40_step_and_operands.md rule R80). -/

namespace Sys2Proof

/-- `OPCODE_MAP` is a bijection from 0 to 15 to the sixteen operations (D1). -/
def opcodeMapWellFormed (m : List Op) : Bool := m.length == 16 && decide m.Nodup

/-- The map gives the instruction's operation one of the opcode-field values 0x00 to 0x0F. -/
def Instr.wellFormed (m : List Op) (i : Instr) : Bool := (m.take 16).contains i.op

/-- A program image has at most 65536 words (rule R141). -/
def imageWellFormed (image : List Word) : Bool := decide (image.length ≤ memWords)

end Sys2Proof
end

