-- ==== Sys2Proof/Decode.lean ====
section
/-! DEFINITION. The decoder and the encoder, written from spec/30_encoding.md rules R50 to R57. The decoder reads a
list of words, the instruction word first, and gives the instruction with the words it did not consume. -/

namespace Sys2Proof

/-- Why the decoder refuses. -/
inductive DecodeError where
  /-- The opcode field names no operation (rule R57); raised before either operand field is decoded. -/
  | illegalOpcode (w : Word)
  /-- The list ends before the instruction word or one of its immediates; the machine always gives three words. -/
  | truncated
deriving DecidableEq, Repr

/-- `opc = w[15:8]` (rule R50). -/
def opcodeField (w : Word) : BitVec 8 := w.extractLsb' 8 8

/-- `f1 = w[7:4]` (rule R50). -/
def field1 (w : Word) : BitVec 4 := w.extractLsb' 4 4

/-- `f2 = w[3:0]` (rule R50). -/
def field2 (w : Word) : BitVec 4 := w.extractLsb' 0 4

/-- `base = f[2:0]` (rule R51). -/
def fieldBase (f : BitVec 4) : BitVec 3 := f.extractLsb' 0 3

/-- `d = f[3]`, the dereference flag (rule R51). -/
def fieldDeref (f : BitVec 4) : Bool := f.getLsbD 3

/-- The register of an ordinal 0 to 6; 7 names no register (rules R10 and R51). -/
def Reg.ofOrdinal (b : BitVec 3) : Option Reg :=
  ([.r0, .r1, .r2, .r3, .sb, .sp, .pc] : List Reg)[b.toNat]?

/-- The ordinal of a register (rule R10). -/
def Reg.ordinal : Reg → Nat
  | .r0 => 0
  | .r1 => 1
  | .r2 => 2
  | .r3 => 3
  | .sb => 4
  | .sp => 5
  | .pc => 6

/-- The operation an opcode field selects: the whole byte counts, and values above 0x0F select none (rules R55 to
R57). -/
def decodeOp (m : List Op) (opc : BitVec 8) : Option Op :=
  if 0x0F#8 < opc then none else m[opc.toNat]?

/-- One operand field, with the words that follow in the instruction stream: base 7 consumes the next of them (rules
R52 and R54). -/
def decodeOperandField (f : BitVec 4) (ws : List Word) : Except DecodeError (Operand × List Word) :=
  match Reg.ofOrdinal (fieldBase f) with
  | some r => .ok (if fieldDeref f then .derefReg r else .reg r, ws)
  | none =>
    match ws with
    | [] => .error .truncated
    | v :: rest => .ok (if fieldDeref f then .derefImm v else .imm v, rest)

/-- The instruction decoder: opcode check first, then operand 1, then operand 2, whose field comes from the same
instruction word (rules R57 and R72). -/
def decode (m : List Op) (ws : List Word) : Except DecodeError (Instr × List Word) :=
  match ws with
  | [] => .error .truncated
  | w :: rest =>
    match decodeOp m (opcodeField w) with
    | none => .error (.illegalOpcode w)
    | some op =>
      match decodeOperandField (field1 w) rest with
      | .error e => .error e
      | .ok (o1, rest1) =>
        match decodeOperandField (field2 w) rest1 with
        | .error e => .error e
        | .ok (o2, rest2) => .ok (op.instr o1 o2, rest2)

/-- The four bits of an operand (rule R52). -/
def Operand.field : Operand → Nat
  | .reg r => r.ordinal
  | .imm _ => 7
  | .derefReg r => 8 + r.ordinal
  | .derefImm _ => 15

/-- The immediate word an operand consumes, if any (rules R53 and R54). -/
def Operand.immediates : Operand → List Word
  | .reg _ => []
  | .imm v => [v]
  | .derefReg _ => []
  | .derefImm v => [v]

/-- The number of immediate words of an operand, 0 or 1. -/
def Operand.k (o : Operand) : Nat := o.immediates.length

/-- The instruction word `w = opc * 256 + f1 * 16 + f2` (rule R50). -/
def instrWord (opc f1 f2 : Nat) : Word := BitVec.ofNat 16 (opc * 256 + f1 * 16 + f2)

/-- The words of an instruction: the instruction word, operand 1's immediate, operand 2's immediate (rule R53). -/
def encode (m : List Op) (i : Instr) : List Word :=
  instrWord (m.idxOf i.op) i.op1.field i.op2.field :: (i.op1.immediates ++ i.op2.immediates)

/-- The three words that `nbits` bits numbered from the first word's least significant bit spell; bits from `nbits` up
are 0. Three words are the longest instruction (rule R53). -/
def tableWords (nbits w : Nat) : List Word :=
  let v := w % 2 ^ nbits
  [BitVec.ofNat 16 v, BitVec.ofNat 16 (v / 65536), BitVec.ofNat 16 (v / 4294967296)]

/-- The instruction the decoder reads from an opcode-table word, under the opcode map the spec decides. -/
def decodeTableWord (nbits w : Nat) : Option Instr :=
  match decode Config.standard.opcodeMap (tableWords nbits w) with
  | .ok (i, _) => some i
  | .error _ => none

end Sys2Proof
end

