-- ==== Sys2Proof/Machine/State.lean ====
section
/-! DEFINITION. The state of the machine as plain data (spec/10_state.md), the reasons a step can stop, and the state
after reset. -/

namespace Sys2Proof.Machine

/-- The register file: seven words (rule R10). The program counter is one of them (rule R14). -/
structure Regs where
  r0 : Word
  r1 : Word
  r2 : Word
  r3 : Word
  sb : Word
  sp : Word
  pc : Word
deriving DecidableEq, Repr

/-- One memory cell with its address. The unit is the word, the machine has no bytes (rule R30, log entry 3). -/
abbrev Cell := Nat × Word

/-- The memory array: the cells that a load or a program has written, addresses strictly rising (`Memory.wf`). A cell
that is not listed reads as the free value `Config.memInit` (rules R15 and R22, log entry 2). -/
abbrev Memory := List Cell

/-- The canonical form: addresses strictly rising and below 65536. No entry can equal what an unlisted cell holds,
since that value is free; so a memory is a finite map with one way to write it (log entry 2). -/
abbrev Memory.wf (m : Memory) : Prop :=
  m.Pairwise (fun p q => p.1 < q.1) ∧ ∀ p ∈ m, p.1 < memWords

/-- The fault causes with the information each records (spec/60_exceptions.md rule R120). -/
inductive FaultCause where
  /-- The fetched word's opcode field is above 0x0F (rule R121). -/
  | illegalOpcode (w : Word)
  /-- DIV or REM with a zero second operand; the instruction's address (rule R122). -/
  | divideByZero (a : Word)
  /-- IN with an index that is not below `N_IN` (rule R123). -/
  | inputChannelRange (i : Word)
  /-- OUT with an index that is not below `N_OUT` (rule R124). -/
  | outputChannelRange (i : Word)
  /-- A program image of more than 65536 words (rule R127). -/
  | loadCapacity (n : Nat)
  /-- Only with `IMM_WRITE = fault`: a result that would be written to an immediate; the instruction's address (rule
  R125). -/
  | immediateWrite (a : Word)
deriving DecidableEq, Repr

/-- `run_state`, with `fault_cause` inside its fourth value (rule R16, log entry 16). -/
inductive RunState where
  | ready
  | running
  | halted
  | faulted (cause : FaultCause)
deriving DecidableEq, Repr

/-- One channel invocation in the event trace (rule R19). -/
inductive Event where
  | input (i v : Word)
  | output (i v : Word)
deriving DecidableEq, Repr

/-- One connected input channel, the environment's side of it (log entries 6 and 7). -/
structure InChannel where
  /-- The words the environment has offered and no IN has taken, the oldest first. -/
  offered : List Word
  /-- With nothing offered: whether the environment withholds its word (the IN is held, rule R133) or delivers a free
  one. -/
  holds : Bool
deriving DecidableEq, Repr

/-- What stands outside the core, seen from the core (rules R18 and R19), and the model's own bookkeeping. -/
structure Environment where
  /-- The input port group; `N_IN` is its length. -/
  inputs : List InChannel
  /-- `N_OUT`, the number of connected output channels. -/
  nOut : Nat
  /-- The number of free words drawn so far (the model's own, log entry 6). -/
  draws : Nat
  /-- The event trace in program order. -/
  trace : List Event
deriving DecidableEq, Repr

/-- The state of the machine. -/
structure State where
  regs : Regs
  mem : Memory
  runState : RunState
  cfg : Config
  env : Environment
deriving DecidableEq, Repr

/-- Why no step is enabled. None of these is a fault of the hardware: a hardware fault is a next state whose run state
is `faulted` (rule R126). -/
inductive Fault where
  /-- Raised by the control loop in the run state Halted, which only a load leaves (rules R16 and R142). Safe. -/
  | stoppedHalted
  /-- Raised by the control loop in the run state Faulted, which only a load leaves (rules R126 and R142). Safe. -/
  | stoppedFaulted (cause : FaultCause)
  /-- Raised by IN on a connected channel whose word the environment withholds: the step is not enabled until a word
  is offered (rule R133). Safe. -/
  | inputHeld (i : Word)
deriving DecidableEq, Repr

/-- Why an instruction has no meaning. Every instruction of this machine has one. -/
inductive Refusal where
  /-- Raised only by a dispatch arm that has no meaning yet; no arm is one. Safe. -/
  | notModelled (mnemonic : String)
deriving DecidableEq, Repr

/-- The outcome of a step. -/
abbrev Result := Host.Outcome State Fault Refusal

/-- The machine right after reset: the state that a load of the empty image leaves (rule R22 with `n = 0`, log entry
4), with one input and one output channel connected (log entry 6). -/
def State.reset : State :=
  { regs := { r0 := 0, r1 := 0, r2 := 0, r3 := 0, sb := 0, sp := 0, pc := resetPc }
    mem := []
    runState := .ready
    cfg := Config.standard
    env := { inputs := [{ offered := [], holds := false }], nOut := 1, draws := 0, trace := [] } }

end Sys2Proof.Machine
end

