-- ==== Sys2Proof/Machine/Ops.lean ====
section
/-! DEFINITION. The named operations over registers, memory, channels and run state; taking a fault and the load, the
only way out of it; the instruction fetch. -/

namespace Sys2Proof.Machine

/-! ### Registers (spec/10_state.md rule R10) -/

/-- `x[i]`. -/
def Regs.get (x : Regs) : Reg → Word
  | .r0 => x.r0
  | .r1 => x.r1
  | .r2 => x.r2
  | .r3 => x.r3
  | .sb => x.sb
  | .sp => x.sp
  | .pc => x.pc

/-- `x[i] <- v`. -/
def Regs.set (x : Regs) (r : Reg) (v : Word) : Regs :=
  match r with
  | .r0 => { x with r0 := v }
  | .r1 => { x with r1 := v }
  | .r2 => { x with r2 := v }
  | .r3 => { x with r3 := v }
  | .sb => { x with sb := v }
  | .sp => { x with sp := v }
  | .pc => { x with pc := v }

/-- Read a register of the machine. -/
def State.reg (s : State) (r : Reg) : Word := s.regs.get r

/-- Write a register of the machine. -/
def State.setReg (s : State) (r : Reg) (v : Word) : State := { s with regs := s.regs.set r v }

/-- `pc`, another spelling of `x[6]` (rule R6). -/
def State.pc (s : State) : Word := s.reg .pc

/-- `pc <- v`. -/
def State.setPc (s : State) (v : Word) : State := s.setReg .pc v

/-! ### Memory (spec/20_memory.md rules R30 to R32) -/

/-- The listed word of an address, if the cell is listed. -/
def Memory.lookup : Memory → Nat → Option Word
  | [], _ => none
  | (b, u) :: rest, a => if a = b then some u else Memory.lookup rest a

/-- Store a word, keeping the addresses strictly rising. -/
def Memory.store : Memory → Nat → Word → Memory
  | [], a, v => [(a, v)]
  | (b, u) :: rest, a, v =>
    if a < b then (a, v) :: (b, u) :: rest
    else if a = b then (a, v) :: rest
    else (b, u) :: Memory.store rest a v

/-- What a cell holds that nothing has written: `MEM_INIT` (rule R22). -/
def unlistedCell (a : Word) : Word := Config.memInit a

/-- `MemRead(a, 1)`; it never fails (rules R7 and R31). -/
def State.readMem (s : State) (a : Word) : Word :=
  match s.mem.lookup a.toNat with
  | some v => v
  | none => unlistedCell a

/-- `MemWrite(a, 1, v)`; it never fails (rules R7 and R31). -/
def State.writeMem (s : State) (a v : Word) : State := { s with mem := s.mem.store a.toNat v }

/-- `P[0]`, `P[1]`, ... to the cells from `a` up (rule R140). -/
def Memory.storeImage : Memory → Nat → List Word → Memory
  | m, _, [] => m
  | m, a, w :: ws => Memory.storeImage (m.store a w) (a + 1) ws

/-! ### Run state and faults (spec/10_state.md rule R16, spec/60_exceptions.md) -/

/-- `run_state <- r`. -/
def State.setRunState (s : State) (r : RunState) : State := { s with runState := r }

/-- `fault_cause` (rule R16). -/
def State.faultCause (s : State) : Option FaultCause :=
  match s.runState with
  | .faulted c => some c
  | _ => none

/-- The cause codes of rule R120. -/
def FaultCause.code : FaultCause → Nat
  | .illegalOpcode _ => 1
  | .divideByZero _ => 2
  | .inputChannelRange _ => 3
  | .outputChannelRange _ => 4
  | .loadCapacity _ => 5
  | .immediateWrite _ => 6

/-- The state a fault leaves: `run_state` is Faulted with the cause, nothing else changes (rule R126). -/
def State.raise (s : State) (c : FaultCause) : State := s.setRunState (.faulted c)

/-- Taking a fault: the step ends here, without the loop increment (rules R9 and R126). -/
def takeFault (s : State) (c : FaultCause) : Result := .next (s.raise c)

/-- `Load(P)`: the machine's reset, an action of the environment and the only way out of Halted and Faulted (rules
R130, R140, R141 and R142). There is no other return from a fault. The event trace starts empty (rule R22). -/
def State.load (s : State) (image : List Word) : State :=
  if memWords < image.length then s.raise (.loadCapacity image.length)
  else
    { s with
      regs := { r0 := 0, r1 := 0, r2 := 0, r3 := 0, sb := Word.ofExact image.length
                sp := Word.ofExact image.length, pc := resetPc }
      mem := s.mem.storeImage loadBase image
      runState := .ready
      env := { s.env with trace := [] } }

/-! ### Channels (spec/10_state.md rules R18 and R19) -/

/-- `N_IN`. -/
def State.nIn (s : State) : Nat := s.env.inputs.length

/-- `N_OUT`. -/
def State.nOut (s : State) : Nat := s.env.nOut

/-- Append one entry to the event trace. -/
def State.record (s : State) (e : Event) : State :=
  { s with env := { s.env with trace := s.env.trace ++ [e] } }

/-- Replace what the environment holds for input channel `i`. -/
def State.setChannel (s : State) (i : Nat) (ch : InChannel) : State :=
  { s with env := { s.env with inputs := s.env.inputs.set i ch } }

/-- Count one draw of a free input word. -/
def State.countDraw (s : State) : State := { s with env := { s.env with draws := s.env.draws + 1 } }

/-- `InPort(i)`: one invocation of input channel `i`. It delivers the oldest offered word; with none offered a free
word, or nothing at all while the environment withholds its word (rules R18 and R133, log entries 6 and 7). -/
def State.inPort (s : State) (i : Word) : Option (Word × State) :=
  match s.env.inputs[i.toNat]? with
  | none => none
  | some ch =>
    match ch.offered with
    | v :: later => some (v, (s.setChannel i.toNat { ch with offered := later }).record (.input i v))
    | [] =>
      if ch.holds then none
      else
        let v := Config.inPort s.env.draws i
        some (v, s.countDraw.record (.input i v))

/-- `OutPort(i, v)`: one invocation of output channel `i`, which always accepts its word (rules R19 and R133). -/
def State.outPort (s : State) (i v : Word) : State := s.record (.output i v)

/-- The environment offers a word on input channel `i`, which lifts the hold of an IN on it (rule R133). -/
def State.offer (s : State) (i : Nat) (v : Word) : State :=
  match s.env.inputs[i]? with
  | none => s
  | some ch => s.setChannel i { ch with offered := ch.offered ++ [v] }

/-! ### Fetch (spec/40_step_and_operands.md rule R70) -/

/-- The word at `pc` and the two after it, addresses modulo 2^16 (rule R32): the longest instruction. Reading all
three has no effect (rule R34, log entry 13). -/
def State.fetchWords (s : State) : List Word :=
  [s.readMem s.pc, s.readMem (s.pc + 1), s.readMem (s.pc + 2)]

/-- The instruction at `pc`, or why there is none. -/
def State.fetch (s : State) : Except DecodeError Instr :=
  match decode s.cfg.opcodeMap s.fetchWords with
  | .ok (i, _) => .ok i
  | .error e => .error e

/-- The loop increment, the last action of every step that neither halts nor raises (rule R79). -/
def loopIncrement (s : State) : Result := .next (s.setPc (s.pc + 1))

/-- Store a list of words at `a`, `a + 1`, ... modulo 2^16. -/
def State.writeWords (s : State) (a : Word) : List Word → State
  | [] => s
  | w :: ws => State.writeWords (s.writeMem a w) (a + 1) ws

/-- A state whose next step fetches at `pc`: the run state is one in which a step is enabled, and `pc` is not the halt
sentinel (rule R70). A state that is so already stays as it is. -/
def State.readyToFetch (s : State) : State :=
  let t := match s.runState with
    | .halted => s.setRunState .running
    | .faulted _ => s.setRunState .running
    | _ => s
  if t.pc = haltPc then t.setPc resetPc else t

/-- The words of an instruction placed where the next step fetches them (log entry 5). -/
def State.placeAtFetch (s : State) (ws : List Word) : State :=
  s.readyToFetch.writeWords s.readyToFetch.pc ws

end Sys2Proof.Machine
end

