-- ==== Sys2Proof/Machine/Operands.lean ====
section
/-! DEFINITION. Operand slots: how an operand resolves to one, and how one is read and written
(spec/40_step_and_operands.md rules R74 to R80). -/

namespace Sys2Proof.Machine

/-- An operand slot (spec/00_scope.md rule R8). It lives inside one instruction. -/
inductive Slot where
  | reg (r : Reg)
  | imm (v : Word)
  | mem (a : Word)
deriving DecidableEq, Repr

/-- `pc <- pc + 1` of the operand decoder, which consumes an immediate word (rule R74, D7). -/
def State.consumeImmediate (s : State) : State := s.setPc (s.pc + 1)

/-- `DecodeOperand` on an operand whose immediate word, if any, is at hand: the slot, and the state with `pc` advanced
over the immediate. The address of a `mem` slot is fixed here (rules R74 and R75). -/
def resolve (o : Operand) (s : State) : Slot × State :=
  match o with
  | .reg r => (.reg r, s)
  | .imm v => (.imm v, s.consumeImmediate)
  | .derefReg r => (.mem (s.reg r), s)
  | .derefImm v => (.mem v, s.consumeImmediate)

/-- Both operands, operand 1 strictly before operand 2 (rule R72), then the execute phase `arm` in the state they
leave. -/
def withSlots (o1 o2 : Operand) (s : State) (arm : Slot → Slot → State → Result) : Result :=
  let d := resolve o1 s
  let x := resolve o2 d.2
  arm d.1 x.1 x.2

/-- `rd(s)` (rule R76). -/
def State.readSlot (s : State) : Slot → Word
  | .reg r => s.reg r
  | .imm v => v
  | .mem a => s.readMem a

/-- `wr(s, v)` followed by the loop increment; `a` is the instruction's address. A write to an immediate is discarded
or raises, by `IMM_WRITE` (rules R77, R79 and R125). -/
def writeBack (a : Word) (d : Slot) (v : Word) (s : State) : Result :=
  match d with
  | .reg r => loopIncrement (s.setReg r v)
  | .mem b => loopIncrement (s.writeMem b v)
  | .imm _ =>
    match s.cfg.immWrite with
    | .discard => loopIncrement s
    | .fault => takeFault s (.immediateWrite a)

/-- The common shape of the arms that combine the two operands' values and write the result into operand 1 (rule
R73). -/
def combine (f : Word → Word → Word) (a : Word) (d x : Slot) (s : State) : Result :=
  writeBack a d (f (s.readSlot d) (s.readSlot x)) s

end Sys2Proof.Machine
end

