-- ==== Sys2Proof/Machine/ControlIo.lean ====
section
/-! DEFINITION. JNZ, IN and OUT (spec/43_control_io.md). -/

namespace Sys2Proof.Machine

/-! ### Execute arms; `a` is the instruction's address -/

/-- Rule R110: a taken jump writes `t - 1`, which the loop increment makes `t`. -/
def armJnz (_a : Word) (d x : Slot) (s : State) : Result :=
  if s.readSlot d = 0#16 then loopIncrement s
  else loopIncrement (s.setPc (s.readSlot x - 1))

/-- Rule R111: the index is the second operand. The range check comes before the invocation, the write after it. While
the environment withholds the channel's word the step is not enabled (rule R133). -/
def armIn (a : Word) (d x : Slot) (s : State) : Result :=
  let i := s.readSlot x
  if s.nIn ≤ i.toNat then takeFault s (.inputChannelRange i)
  else
    match s.inPort i with
    | none => .fault (.inputHeld i)
    | some (v, t) => writeBack a d v t

/-- Rule R112: the index is the first operand, the datum the second. -/
def armOut (_a : Word) (d x : Slot) (s : State) : Result :=
  let i := s.readSlot d
  if s.nOut ≤ i.toNat then takeFault s (.outputChannelRange i)
  else loopIncrement (s.outPort i (s.readSlot x))

/-! ### Meanings -/

/-- JNZ (rule R110). -/
def execJnz (o1 o2 : Operand) (s : State) : Result := withSlots o1 o2 s (armJnz s.pc)

/-- IN (rule R111). -/
def execIn (o1 o2 : Operand) (s : State) : Result := withSlots o1 o2 s (armIn s.pc)

/-- OUT (rule R112). -/
def execOut (o1 o2 : Operand) (s : State) : Result := withSlots o1 o2 s (armOut s.pc)

end Sys2Proof.Machine
end

