-- ==== Sys2Proof/Machine/Flags.lean ====
section
/-! DEFINITION. The machine has no flags and no condition codes (spec/10_state.md rule R17): the outcome of a
comparison is a word, 1 or 0. This file holds those outcomes (spec/00_scope.md rule R5, spec/42_logic_compare.md). -/

namespace Sys2Proof.Machine

/-- `b2w(c)` (rule R5). -/
def b2w (c : Bool) : Word := if c then 1#16 else 0#16

/-- `b == 0` (rule R100). -/
def truthNot (b : Word) : Word := b2w (b.toNat == 0)

/-- `a == b` (rule R104). -/
def truthEq (a b : Word) : Word := b2w (a.toNat == b.toNat)

/-- `a < b`, unsigned and strict (rule R105). -/
def truthLe (a b : Word) : Word := b2w (decide (a.toNat < b.toNat))

/-- `a <= b`, unsigned (rule R106). -/
def truthLeq (a b : Word) : Word := b2w (decide (a.toNat ≤ b.toNat))

end Sys2Proof.Machine
end

