-- ==== Sys2Proof/Machine/LogicCompare.lean ====
section
/-! DEFINITION. NOT, AND, OR, XOR, EQ, LE and LEQ (spec/42_logic_compare.md). None of them raises a fault of its own. -/

namespace Sys2Proof.Machine

/-! ### Execute arms; `a` is the instruction's address -/

/-- Rule R100: logical, not bitwise; operand 1 is not read. -/
def armNot (a : Word) (d x : Slot) (s : State) : Result := writeBack a d (truthNot (s.readSlot x)) s

/-- Rule R101. -/
def armAnd (a : Word) (d x : Slot) (s : State) : Result := combine (fun p q => p &&& q) a d x s

/-- Rule R102. -/
def armOr (a : Word) (d x : Slot) (s : State) : Result := combine (fun p q => p ||| q) a d x s

/-- Rule R103. -/
def armXor (a : Word) (d x : Slot) (s : State) : Result := combine (fun p q => p ^^^ q) a d x s

/-- Rule R104. -/
def armEq (a : Word) (d x : Slot) (s : State) : Result := combine truthEq a d x s

/-- Rule R105: strict, in spite of the name (spec/90_conflicts.md C7). -/
def armLe (a : Word) (d x : Slot) (s : State) : Result := combine truthLe a d x s

/-- Rule R106. -/
def armLeq (a : Word) (d x : Slot) (s : State) : Result := combine truthLeq a d x s

/-! ### Meanings -/

/-- NOT (rule R100). -/
def execNot (o1 o2 : Operand) (s : State) : Result := withSlots o1 o2 s (armNot s.pc)

/-- AND (rule R101). -/
def execAnd (o1 o2 : Operand) (s : State) : Result := withSlots o1 o2 s (armAnd s.pc)

/-- OR (rule R102). -/
def execOr (o1 o2 : Operand) (s : State) : Result := withSlots o1 o2 s (armOr s.pc)

/-- XOR (rule R103). -/
def execXor (o1 o2 : Operand) (s : State) : Result := withSlots o1 o2 s (armXor s.pc)

/-- EQ (rule R104). -/
def execEq (o1 o2 : Operand) (s : State) : Result := withSlots o1 o2 s (armEq s.pc)

/-- LE (rule R105). -/
def execLe (o1 o2 : Operand) (s : State) : Result := withSlots o1 o2 s (armLe s.pc)

/-- LEQ (rule R106). -/
def execLeq (o1 o2 : Operand) (s : State) : Result := withSlots o1 o2 s (armLeq s.pc)

end Sys2Proof.Machine
end

