-- ==== Sys2Proof/Machine/MoveArith.lean ====
section
/-! DEFINITION. MOV, ADD, SUB, MUL, DIV and REM (spec/41_move_arith.md). Each instruction has an execute arm, on the
slots already decoded, and a meaning: the whole step from its instruction word's address on. -/

namespace Sys2Proof.Machine

/-! ### Exact results, reduced modulo 2^16 (spec/00_scope.md rule R5) -/

/-- `(a + b) mod 2^16` (rule R91). -/
def sumWord (a b : Word) : Word := Word.ofExact (a.toNat + b.toNat)

/-- `(a - b) mod 2^16`, the non-negative remainder (rule R92). -/
def differenceWord (a b : Word) : Word := BitVec.ofInt 16 ((a.toNat : Int) - (b.toNat : Int))

/-- `(a * b) mod 2^16` (rule R93). -/
def productWord (a b : Word) : Word := Word.ofExact (a.toNat * b.toNat)

/-- `a div b` (rule R94). -/
def quotientWord (a b : Word) : Word := Word.ofExact (a.toNat / b.toNat)

/-- `a rem b` (rule R95). -/
def remainderWord (a b : Word) : Word := Word.ofExact (a.toNat % b.toNat)

/-- The shared form of DIV and REM: a zero divisor raises before any write (rules R94 and R95; parameter `DIV_ZERO`,
D3). -/
def divideArm (f : Word → Word → Word) (a : Word) (d x : Slot) (s : State) : Result :=
  if s.readSlot x = 0#16 then
    match s.cfg.divZero with
    | .fault => takeFault s (.divideByZero a)
  else combine f a d x s

/-! ### Execute arms; `a` is the instruction's address -/

/-- Rule R90. -/
def armMov (a : Word) (d x : Slot) (s : State) : Result := writeBack a d (s.readSlot x) s

/-- Rule R91. -/
def armAdd (a : Word) (d x : Slot) (s : State) : Result := combine sumWord a d x s

/-- Rule R92. -/
def armSub (a : Word) (d x : Slot) (s : State) : Result := combine differenceWord a d x s

/-- Rule R93. -/
def armMul (a : Word) (d x : Slot) (s : State) : Result := combine productWord a d x s

/-- Rule R94. -/
def armDiv (a : Word) (d x : Slot) (s : State) : Result := divideArm quotientWord a d x s

/-- Rule R95. -/
def armRem (a : Word) (d x : Slot) (s : State) : Result := divideArm remainderWord a d x s

/-! ### Meanings -/

/-- MOV (rule R90). -/
def execMov (o1 o2 : Operand) (s : State) : Result := withSlots o1 o2 s (armMov s.pc)

/-- ADD (rule R91). -/
def execAdd (o1 o2 : Operand) (s : State) : Result := withSlots o1 o2 s (armAdd s.pc)

/-- SUB (rule R92). -/
def execSub (o1 o2 : Operand) (s : State) : Result := withSlots o1 o2 s (armSub s.pc)

/-- MUL (rule R93). -/
def execMul (o1 o2 : Operand) (s : State) : Result := withSlots o1 o2 s (armMul s.pc)

/-- DIV (rule R94). -/
def execDiv (o1 o2 : Operand) (s : State) : Result := withSlots o1 o2 s (armDiv s.pc)

/-- REM (rule R95). -/
def execRem (o1 o2 : Operand) (s : State) : Result := withSlots o1 o2 s (armRem s.pc)

end Sys2Proof.Machine
end

