-- ==== Sys2Proof/Machine/Dispatch.lean ====
section
/-! DEFINITION. The execution dispatch over the sixteen instructions (spec/40_step_and_operands.md rule R73). -/

namespace Sys2Proof.Machine

/-- One instruction, from the decoding of its operands to the loop increment (rules R70 and R73). -/
def exec (i : Instr) (s : State) : Host.Outcome State Fault Refusal :=
  match i with
  | .mov o1 o2 => Sys2Proof.Machine.execMov o1 o2 s
  | .add o1 o2 => Sys2Proof.Machine.execAdd o1 o2 s
  | .sub o1 o2 => Sys2Proof.Machine.execSub o1 o2 s
  | .mul o1 o2 => Sys2Proof.Machine.execMul o1 o2 s
  | .div o1 o2 => Sys2Proof.Machine.execDiv o1 o2 s
  | .rem o1 o2 => Sys2Proof.Machine.execRem o1 o2 s
  | .not o1 o2 => Sys2Proof.Machine.execNot o1 o2 s
  | .and o1 o2 => Sys2Proof.Machine.execAnd o1 o2 s
  | .or o1 o2 => Sys2Proof.Machine.execOr o1 o2 s
  | .xor o1 o2 => Sys2Proof.Machine.execXor o1 o2 s
  | .eq o1 o2 => Sys2Proof.Machine.execEq o1 o2 s
  | .le o1 o2 => Sys2Proof.Machine.execLe o1 o2 s
  | .leq o1 o2 => Sys2Proof.Machine.execLeq o1 o2 s
  | .jnz o1 o2 => Sys2Proof.Machine.execJnz o1 o2 s
  | .inp o1 o2 => Sys2Proof.Machine.execIn o1 o2 s
  | .out o1 o2 => Sys2Proof.Machine.execOut o1 o2 s

end Sys2Proof.Machine
end

