-- ==== Sys2Proof/Machine/Loop.lean ====
section
/-! DEFINITION. The fetch-decode-execute control loop: one iteration (spec/40_step_and_operands.md rule R70). -/

namespace Sys2Proof.Machine

/-- Fetch, decode and execute, after the halt check: `run_state` becomes Running, and a word whose opcode field names
no operation raises `IllegalOpcode` with nothing consumed (rules R70 and R71; parameter `ILLEGAL_OPCODE`, D2). -/
def runInstruction (s : State) : Result :=
  let t := s.setRunState .running
  match t.fetch with
  | .ok i => exec i t
  | .error _ =>
    match t.cfg.illegalOpcode with
    | .fault => takeFault t (.illegalOpcode (t.readMem t.pc))

/-- The halt check, made once, at the top of the step and before any fetch (rules R70 and R147). -/
def haltOrRun (s : State) : Result :=
  if s.pc = haltPc then .next (s.setRunState .halted) else runInstruction s

/-- One iteration, enabled when `run_state` is Ready or Running; Halted and Faulted have no outgoing transition but a
load (rules R16, R70 and R142). -/
def controlLoop (s : State) : Result :=
  match s.runState with
  | .ready => haltOrRun s
  | .running => haltOrRun s
  | .halted => .fault .stoppedHalted
  | .faulted c => .fault (.stoppedFaulted c)

end Sys2Proof.Machine
end

