-- ==== Sys2Proof/Machine/Step.lean ====
section
/-! DEFINITION. The step of the machine, and how an instruction is placed where the next step fetches it. -/

namespace Sys2Proof.Machine

/-- One step: one iteration of the control loop (spec/40_step_and_operands.md rule R70). -/
def step (s : State) : Host.Outcome State Fault Refusal := controlLoop s

/-- `s` with the instruction that `nbits` and `w` spell stored where `step` fetches its next instruction (log entry
5). -/
def State.withFetchWord (s : State) (nbits w : Nat) : State := s.placeAtFetch (tableWords nbits w)

end Sys2Proof.Machine
end

