-- ==== Sys2Proof/Safety.lean ====
section
/-! DEFINITION. Runs, when one ends well, and the invariant of the machine (spec/70_reset_and_hazards.md rule R144,
spec/60_exceptions.md rule R126). -/

namespace Sys2Proof.Machine

/-- A step is enabled in Ready and in Running (spec/40_step_and_operands.md rule R70). -/
def State.Enabled (s : State) : Prop := s.runState = .ready ∨ s.runState = .running

/-- A run ended successfully: Halted. A Faulted state is never a successful end (rules R126 and R144). -/
def State.EndedWell (s : State) : Prop := s.runState = .halted

/-- The run was aborted by a fault. -/
def State.Faulted (s : State) : Prop := ∃ c, s.runState = .faulted c

/-- `t` is reached from `s` by steps of the machine (rule R81). -/
inductive Reaches : State → State → Prop where
  | refl (s : State) : Reaches s s
  | step {s t u : State} (run : Reaches s t) (h : Machine.step t = .next u) : Reaches s u

/-- A safe run: no state reached from `s` is Faulted. -/
def NeverFaults (s : State) : Prop := ∀ t, Reaches s t → ¬ t.Faulted

/-- The event names a channel that is connected. -/
def Event.Connected (s : State) : Event → Prop
  | .input i _ => i.toNat < s.nIn
  | .output i _ => i.toNat < s.nOut

/-- What every step keeps: memory is in canonical form, a halted machine has the sentinel in `pc`, and the event trace
names connected channels only. -/
structure State.Inv (s : State) : Prop where
  memory : s.mem.wf
  halted : s.runState = .halted → s.pc = haltPc
  trace : ∀ e ∈ s.env.trace, e.Connected s

end Sys2Proof.Machine
end

