-- ==== Sys2Proof/Certificates/Slice0/Obligations.lean ====
section
/-! DEFINITION. The statements for the provers, from the numbered rules of spec/. `Sys2Proof.Claims` holds the words
they are said in: the values an instruction reads and the state it leaves, written from the rules and not from the
meanings. -/

namespace Sys2Proof.Claims

open Sys2Proof.Machine

/-- `A + k`, the value of `pc` in the execute phase (spec/10_state.md rule R12); `A` is `s.pc`. -/
def executePc (o1 o2 : Operand) (s : State) : Word := s.pc + BitVec.ofNat 16 (o1.k + o2.k)

/-- The value operand 1 has in the execute phase (spec/40_step_and_operands.md rules R75 and R76). -/
def value1 (o1 o2 : Operand) (s : State) : Word :=
  match o1 with
  | .reg .pc => executePc o1 o2 s
  | .reg r => s.reg r
  | .imm v => v
  | .derefReg r => s.readMem (s.reg r)
  | .derefImm a => s.readMem a

/-- The value operand 2 has in the execute phase: `[PC]` is the cell at `A`, or at `A + 1` when operand 1 consumed an
immediate (rules R75 and R76). -/
def value2 (o1 o2 : Operand) (s : State) : Word :=
  match o2 with
  | .reg .pc => executePc o1 o2 s
  | .reg r => s.reg r
  | .imm v => v
  | .derefReg .pc => s.readMem (s.pc + BitVec.ofNat 16 o1.k)
  | .derefReg r => s.readMem (s.reg r)
  | .derefImm a => s.readMem a

/-- `t` is `s` after an instruction that wrote `v` to operand 1, and nothing else is changed: the destination register
or cell holds `v`; every other register and every other cell is as before; `pc` is one past `A + k`, or one past the
written value; run state, configuration and environment are as before. A write to an immediate changes nothing. -/
structure Written (o1 o2 : Operand) (v : Word) (s t : State) : Prop where
  registers : ∀ r, r ≠ .pc → t.reg r = if o1 = .reg r then v else s.reg r
  counter : t.pc = (if o1 = .reg .pc then v else executePc o1 o2 s) + 1
  stored : ∀ a, (resolve o1 s).1 = .mem a → t.readMem a = v ∧ ∀ b, b ≠ a → t.readMem b = s.readMem b
  kept : (∀ a, (resolve o1 s).1 ≠ .mem a) → ∀ b, t.readMem b = s.readMem b
  runState : t.runState = s.runState
  cfg : t.cfg = s.cfg
  env : t.env = s.env

/-- `t` is `s` but for `pc`: every other register, every cell, run state, configuration and environment are as
before. -/
structure OnlyPcMoved (s t : State) : Prop where
  registers : ∀ r, r ≠ .pc → t.reg r = s.reg r
  memory : ∀ b, t.readMem b = s.readMem b
  runState : t.runState = s.runState
  cfg : t.cfg = s.cfg
  env : t.env = s.env

/-- Operand 1 takes a write: it is no immediate, or `IMM_WRITE` is `discard` (spec/40_step_and_operands.md rule
R77). -/
def TakesWrite (o1 : Operand) (s : State) : Prop := (∀ u, o1 ≠ .imm u) ∨ s.cfg.immWrite = .discard

/-- Where an instruction raises after its operands are decoded: `pc = A + k`, the cause latched, nothing else changed
(spec/60_exceptions.md rules R122 to R126). -/
def raisedInExecute (o1 o2 : Operand) (s : State) (c : FaultCause) : State := (s.setPc (executePc o1 o2 s)).raise c

/-- With the opcode numbers the spec decides, the instruction's words are `opc * 256 + f1 * 16 + f2`, then the
immediates in operand order (spec/30_encoding.md rules R50, R53 and R55). -/
def EncodedAs (opc : Nat) (mk : Operand → Operand → Instr) : Prop :=
  ∀ o1 o2, encode Config.standard.opcodeMap (mk o1 o2) =
    BitVec.ofNat 16 (opc * 256 + o1.field * 16 + o2.field) :: (o1.immediates ++ o2.immediates)

/-- The environment delivers `v` on channel `i`, leaving `e`: the oldest offered word, or with none offered a word about
which nothing is said. The event trace gains the delivery (the model's form of `InPort`, log entry 6). -/
def Delivers (s : State) (i v : Word) (e : Environment) : Prop :=
  ∃ ch, s.env.inputs[i.toNat]? = some ch ∧
    ((∃ later, ch.offered = v :: later ∧
        e = { s.env with
              inputs := s.env.inputs.set i.toNat { ch with offered := later }
              trace := s.env.trace ++ [.input i v] }) ∨
      (ch.offered = [] ∧ ch.holds = false ∧
        e = { s.env with draws := s.env.draws + 1, trace := s.env.trace ++ [.input i v] }))

/-- Channel `i` is connected and the environment withholds its word (log entry 7). -/
def Withheld (s : State) (i : Word) : Prop :=
  ∃ ch, s.env.inputs[i.toNat]? = some ch ∧ ch.offered = [] ∧ ch.holds = true

/-- The word that a writing operation other than IN stores into operand 1, for the operands' values `a` and `b` (rules
R90 to R95 and R100 to R106). JNZ and OUT store none, and IN's word is the environment's. -/
def resultWord (op : Op) (a b : Word) : Option Word :=
  match op with
  | .mov => some b
  | .add => some (a + b)
  | .sub => some (a - b)
  | .mul => some (a * b)
  | .div => some (a / b)
  | .rem => some (a % b)
  | .not => some (if b = 0#16 then 1#16 else 0#16)
  | .and => some (a &&& b)
  | .or => some (a ||| b)
  | .xor => some (a ^^^ b)
  | .eq => some (if a = b then 1#16 else 0#16)
  | .le => some (if a.toNat < b.toNat then 1#16 else 0#16)
  | .leq => some (if a.toNat ≤ b.toNat then 1#16 else 0#16)
  | .jnz => none
  | .inp => none
  | .out => none

/-- The fourteen operations that write operand 1: all but JNZ and OUT (spec/30_encoding.md rule R58). -/
def Writes (op : Op) : Prop := op ≠ .jnz ∧ op ≠ .out

/-! The pseudocode of spec/40_step_and_operands.md, line by line: operands are decoded from fields, and the immediate
words are read from memory while `pc` advances over them. -/

/-- `DecodeOperand(f)` (rule R74). -/
def pseudoDecodeOperand (f : BitVec 4) (s : State) : Slot × State :=
  let base := f.toNat % 8
  let a := s.pc + 1
  let v := s.readMem a
  let t := if base = 7 then s.setPc a else s
  let inner : Slot :=
    match base with
    | 0 => .reg .r0
    | 1 => .reg .r1
    | 2 => .reg .r2
    | 3 => .reg .r3
    | 4 => .reg .sb
    | 5 => .reg .sp
    | 6 => .reg .pc
    | _ => .imm v
  (if f.toNat < 8 then inner else .mem (t.readSlot inner), t)

/-- `wr(s, v)` by the instruction at `a` (rules R77 and R125). `.ok` goes on with the step, `.error` ends it. -/
def pseudoWrite (a : Word) (d : Slot) (v : Word) (s : State) : Except Result State :=
  match d with
  | .reg r => .ok (s.setReg r v)
  | .mem b => .ok (s.writeMem b v)
  | .imm _ => if s.cfg.immWrite = .fault then .error (.next (s.raise (.immediateWrite a))) else .ok s

/-- `Execute(opc, s1, s2)` for the instruction at `a` (rule R73): the pseudocode of rules R90 to R95, R100 to R106 and
R110 to R112, on exact numbers. -/
def pseudoExecute (op : Op) (a : Word) (s1 s2 : Slot) (s : State) : Except Result State :=
  let x := s.readSlot s1
  let y := s.readSlot s2
  let wr (n : Nat) := pseudoWrite a s1 (BitVec.ofNat 16 n) s
  match op with
  | .mov => wr y.toNat
  | .add => wr (x.toNat + y.toNat)
  | .sub => wr (x.toNat + 65536 - y.toNat)
  | .mul => wr (x.toNat * y.toNat)
  | .div => if y.toNat = 0 then .error (.next (s.raise (.divideByZero a))) else wr (x.toNat / y.toNat)
  | .rem => if y.toNat = 0 then .error (.next (s.raise (.divideByZero a))) else wr (x.toNat % y.toNat)
  | .not => wr (if y.toNat = 0 then 1 else 0)
  | .and => wr (x.toNat &&& y.toNat)
  | .or => wr (x.toNat ||| y.toNat)
  | .xor => wr (x.toNat ^^^ y.toNat)
  | .eq => wr (if x.toNat = y.toNat then 1 else 0)
  | .le => wr (if x.toNat < y.toNat then 1 else 0)
  | .leq => wr (if x.toNat ≤ y.toNat then 1 else 0)
  | .jnz => if x.toNat = 0 then .ok s else .ok (s.setPc (BitVec.ofNat 16 (y.toNat + 65535)))
  | .inp =>
    if s.nIn ≤ y.toNat then .error (.next (s.raise (.inputChannelRange y)))
    else
      match s.inPort y with
      | none => .error (.fault (.inputHeld y))
      | some (v, t) => pseudoWrite a s1 v t
  | .out =>
    if s.nOut ≤ x.toNat then .error (.next (s.raise (.outputChannelRange x))) else .ok (s.outPort x y)

/-- The last line of `Step`: the loop increment, not performed when a line before it has raised (rules R70 and R79). -/
def pseudoIncrement : Except Result State → Result
  | .ok t => .next (t.setPc (BitVec.ofNat 16 (t.pc.toNat + 1)))
  | .error r => r

/-- `Step` (rule R70). -/
def pseudoStep (s : State) : Result :=
  if s.pc = 0xFFFF#16 then .next (s.setRunState .halted)
  else
    let t := s.setRunState .running
    let a := t.pc
    let w := t.readMem a
    if 0x0F < w.toNat / 256 then .next (t.raise (.illegalOpcode w))
    else
      match t.cfg.opcodeMap[w.toNat / 256]? with
      | none => .next (t.raise (.illegalOpcode w))
      | some op =>
        let d := pseudoDecodeOperand (BitVec.ofNat 4 (w.toNat / 16 % 16)) t
        let x := pseudoDecodeOperand (BitVec.ofNat 4 (w.toNat % 16)) d.2
        pseudoIncrement (pseudoExecute op a d.1 x.1 x.2)

/-- The sixteen rows of rule R52's table in state `s`, `v` the word at `pc + 1`: field, operand, the slot it decodes to,
and whether the word is consumed. -/
def operandTable (s : State) : List (Nat × Operand × Slot × Bool) :=
  let v := s.readMem (s.pc + 1)
  [(0x0, .reg .r0, .reg .r0, false), (0x1, .reg .r1, .reg .r1, false), (0x2, .reg .r2, .reg .r2, false),
   (0x3, .reg .r3, .reg .r3, false), (0x4, .reg .sb, .reg .sb, false), (0x5, .reg .sp, .reg .sp, false),
   (0x6, .reg .pc, .reg .pc, false), (0x7, .imm v, .imm v, true),
   (0x8, .derefReg .r0, .mem (s.reg .r0), false), (0x9, .derefReg .r1, .mem (s.reg .r1), false),
   (0xA, .derefReg .r2, .mem (s.reg .r2), false), (0xB, .derefReg .r3, .mem (s.reg .r3), false),
   (0xC, .derefReg .sb, .mem (s.reg .sb), false), (0xD, .derefReg .sp, .mem (s.reg .sp), false),
   (0xE, .derefReg .pc, .mem s.pc, false), (0xF, .derefImm v, .mem v, true)]

/-- The conditions of rule R120 under which an instruction raises, with the cause. -/
def FaultsWith (i : Instr) (s : State) (c : FaultCause) : Prop :=
  ((i.op = .div ∨ i.op = .rem) ∧ value2 i.op1 i.op2 s = 0#16 ∧ c = .divideByZero s.pc) ∨
  (i.op = .inp ∧ s.nIn ≤ (value2 i.op1 i.op2 s).toNat ∧ c = .inputChannelRange (value2 i.op1 i.op2 s)) ∨
  (i.op = .out ∧ s.nOut ≤ (value1 i.op1 i.op2 s).toNat ∧ c = .outputChannelRange (value1 i.op1 i.op2 s)) ∨
  (Writes i.op ∧ (∃ u, i.op1 = .imm u) ∧ s.cfg.immWrite = .fault ∧
    (i.op = .div ∨ i.op = .rem → value2 i.op1 i.op2 s ≠ 0#16) ∧
    (i.op = .inp → (value2 i.op1 i.op2 s).toNat < s.nIn) ∧ c = .immediateWrite s.pc)

end Sys2Proof.Claims

open Sys2Proof Sys2Proof.Machine Sys2Proof.Claims

/-! ### Encoding -/

/-- Decoding an encoded instruction gives it back, for every opcode map that numbers its operation, every operand and
every word that follows (spec/30_encoding.md rules R50 to R55). -/
def Obligations.DecodeOfEncodeIsTheInstruction : Prop :=
  ∀ (m : List Op) (i : Instr) (rest : List Word), i.wellFormed m = true →
    decode m (encode m i ++ rest) = .ok (i, rest)

/-- Each instruction has one spelling: what the decoder consumed are the words the encoder writes, when no operation
has two numbers (rules R50 to R56). -/
def Obligations.EncodeOfDecodeIsTheWords : Prop :=
  ∀ (m : List Op) (ws : List Word) (i : Instr) (rest : List Word), m.Nodup → decode m ws = .ok (i, rest) →
    encode m i ++ rest = ws ∧ i.wellFormed m = true

/-- Rule R56: the opcode is the whole upper byte, and the words 0x0000 to 0x0FFF, with every pair of operand fields,
are exactly the defined instruction words. -/
def Obligations.DefinedInstructionWordsAreBelow0x1000 : Prop :=
  ∀ (m : List Op) (w a b : Word), opcodeMapWellFormed m = true →
    ((∃ i rest, decode m [w, a, b] = .ok (i, rest) ∧ m[(w.toNat / 256)]? = some i.op) ↔ w.toNat < 0x1000) ∧
    (decode m [w, a, b] = .error (.illegalOpcode w) ↔ 0x1000 ≤ w.toNat)

/-- Rule R53, the length: the decoder consumes one immediate word for each operand field of base 7, read off the
instruction word alone, operand 1's first. -/
def Obligations.LengthIsReadOffTheInstructionWord : Prop :=
  ∀ (m : List Op) (w : Word) (ws : List Word) (i : Instr) (rest : List Word), decode m (w :: ws) = .ok (i, rest) →
    i.op1.k = (if w.toNat / 16 % 8 = 7 then 1 else 0) ∧ i.op2.k = (if w.toNat % 8 = 7 then 1 else 0) ∧
    ws = i.op1.immediates ++ i.op2.immediates ++ rest

/-- Rule R52: the sixteen values of an operand field, the operand and the slot each stands for, and whether it consumes
the word at `pc + 1` and advances `pc`. -/
def Obligations.OperandFieldsFollowTheTable : Prop :=
  ∀ (s : State) (rest : List Word) (f : Nat) (o : Operand) (slot : Slot) (consumed : Bool),
    (f, o, slot, consumed) ∈ operandTable s →
    decodeOperandField (BitVec.ofNat 4 f) (s.readMem (s.pc + 1) :: rest) =
      .ok (o, if consumed then rest else s.readMem (s.pc + 1) :: rest) ∧ o.field = f ∧
    resolve o s = (slot, if consumed then s.setPc (s.pc + 1) else s)

/-- Words written out from rules R50 to R55 and the instruction rules' own examples decode to the instructions they
stand for. -/
def Obligations.WrittenOutWordsDecode : Prop :=
  decode Config.tableOrder [0x01F7, 0x0100, 0x0001] = .ok (.add (.derefImm 0x0100) (.imm 1), []) ∧
  decode Config.tableOrder [0x0633] = .ok (.not (.reg .r3) (.reg .r3), []) ∧
  decode Config.tableOrder [0x0D77, 0x0001, 0xFFFF] = .ok (.jnz (.imm 1) (.imm 0xFFFF), []) ∧
  decode Config.tableOrder [0x0E01] = .ok (.inp (.reg .r0) (.reg .r1), []) ∧
  decode Config.tableOrder [0x0F1A] = .ok (.out (.reg .r1) (.derefReg .r2), []) ∧
  decode Config.tableOrder [0x8D01] = .error (.illegalOpcode 0x8D01)

/-! ### The control loop -/

/-- A step runs the instruction that the words at `pc` decode to; around it the loop adds the run state Running, and
the increment of rule R79 is part of `exec` (rule R70). -/
def Obligations.StepRunsTheDecodedInstruction : Prop :=
  ∀ (s : State) (i : Instr) (rest : List Word), s.Enabled → s.pc ≠ 0xFFFF#16 →
    decode s.cfg.opcodeMap [s.readMem s.pc, s.readMem (s.pc + 1), s.readMem (s.pc + 2)] = .ok (i, rest) →
    step s = exec i (s.setRunState .running)

/-- The pseudocode of the step, line by line: a step of the model, which fetches whole instructions and dispatches on
them, does what the decoding of rule R74 does that reads each immediate from memory while `pc` advances, followed by the
arm of rule R73 and the increment. Two things are the model's choice: what an invocation of an input channel delivers
(log entries 6 and 7), and that a map which numbers no operation for an opcode field below 0x10 makes that word raise
`IllegalOpcode`, a case the spec does not have (log entry 10). -/
def Obligations.StepRefinesThePseudocode : Prop :=
  ∀ s : State, s.Enabled → step s = pseudoStep s

/-- A step halts exactly when it finds the sentinel in `pc` at its top, and then changes nothing but the run state
(rules R144 and R147). -/
def Obligations.HaltsExactlyAtTheSentinel : Prop :=
  ∀ s : State, s.Enabled →
    (s.pc = 0xFFFF#16 → step s = .next (s.setRunState .halted)) ∧
    ∀ t, step s = .next t → (t.runState = .halted ↔ s.pc = 0xFFFF#16)

/-- Rule R121: an opcode field above 0x0F raises with `pc` at the word, no register, cell or channel touched. -/
def Obligations.UndefinedOpcodeRaisesBeforeOperandDecode : Prop :=
  ∀ s : State, s.Enabled → s.pc ≠ 0xFFFF#16 → 0x1000 ≤ (s.readMem s.pc).toNat →
    step s = .next (s.raise (.illegalOpcode (s.readMem s.pc)))

/-- Halted and Faulted have no outgoing step (rule R16); that `step` then answers a stop under a name of its own is the
model's form of it (log entry 8). -/
def Obligations.StoppedMachineTakesNoStep : Prop :=
  ∀ s : State, (s.runState = .halted → step s = .fault .stoppedHalted) ∧
    ∀ c, s.runState = .faulted c → step s = .fault (.stoppedFaulted c)

/-- A step does the same from Ready as from Running: the two differ in nothing a program can see (rule R16). -/
def Obligations.ReadyAndRunningStepAlike : Prop :=
  ∀ s : State, step (s.setRunState .ready) = step (s.setRunState .running)

/-- The halt idiom of rule R61, `JNZ #1, #0xFFFF`: two steps from any address end the run. -/
def Obligations.HaltIdiomEndsTheRun : Prop :=
  ∀ s : State, s.Enabled → s.pc ≠ 0xFFFF#16 → s.cfg.opcodeMap = Config.tableOrder →
    s.readMem s.pc = 0x0D77#16 → s.readMem (s.pc + 1) = 1#16 → s.readMem (s.pc + 2) = 0xFFFF#16 →
    ∃ t u, step s = .next t ∧ step t = .next u ∧ u.EndedWell ∧ OnlyPcMoved (s.setRunState .halted) u

/-- The step after a word is placed for the fetch runs exactly the instruction that the word decodes to (the model's
interface, log entry 5). -/
def Obligations.PlacedWordRunsNext : Prop :=
  ∀ (s : State) (nbits w : Nat) (i : Instr), s.cfg.opcodeMap = Config.tableOrder →
    decodeTableWord nbits w = some i →
    step (s.withFetchWord nbits w) = exec i ((s.withFetchWord nbits w).setRunState .running)

/-! ### Operands -/

/-- Rule R75: a dereferenced address is fixed when its field is decoded, a register is read in the execute phase; the
two differ for PC only. -/
def Obligations.SlotMomentsFollowTheTable : Prop :=
  ∀ (o1 o2 : Operand) (s : State),
    let d := resolve o1 s
    let x := resolve o2 d.2
    x.2 = s.setPc (executePc o1 o2 s) ∧ (∀ r, r ≠ .pc → x.2.reg r = s.reg r) ∧
    (o1 = .reg .pc → x.2.readSlot d.1 = executePc o1 o2 s) ∧
    (o2 = .reg .pc → x.2.readSlot x.1 = executePc o1 o2 s) ∧
    (o1 = .derefReg .pc → d.1 = .mem s.pc) ∧
    (o2 = .derefReg .pc → o1.k = 0 → x.1 = .mem s.pc) ∧
    (o2 = .derefReg .pc → o1.k = 1 → x.1 = .mem (s.pc + 1)) ∧
    (∀ r, r ≠ .pc → (o1 = .derefReg r → d.1 = .mem (s.reg r)) ∧ (o2 = .derefReg r → x.1 = .mem (s.reg r)))

/-- The address a result is stored to, as the meanings compute it: the named register's value, or the pointer literal
(rules R74 and R80). -/
def Obligations.StoreAddressIsRegisterOrLiteral : Prop :=
  ∀ (o : Operand) (s : State) (a : Word),
    (resolve o s).1 = .mem a ↔ (∃ r, o = .derefReg r ∧ a = s.reg r) ∨ o = .derefImm a

/-- Rule R78: two operands whose slots name one location, a register or a cell, however each is spelt; both are read,
then the one write. A register that the other operand used as an address: the address was taken before the write. -/
def Obligations.SameLocationTwice : Prop :=
  (∀ (s : State) (o1 o2 : Operand), (resolve o1 s).1 = (resolve o2 (resolve o1 s).2).1 → (∀ u, o1 ≠ .imm u) →
    value2 o1 o2 s = value1 o1 o2 s ∧
    (∃ t, exec (.mov o1 o2) s = .next t ∧ OnlyPcMoved s t ∧ t.pc = executePc o1 o2 s + 1) ∧
    (∃ t, exec (.add o1 o2) s = .next t ∧ Written o1 o2 (BitVec.ofNat 16 (2 * (value1 o1 o2 s).toNat)) s t) ∧
    (∃ t, exec (.sub o1 o2) s = .next t ∧ Written o1 o2 0#16 s t) ∧
    (∃ t, exec (.xor o1 o2) s = .next t ∧ Written o1 o2 0#16 s t) ∧
    (∃ t, exec (.eq o1 o2) s = .next t ∧ Written o1 o2 1#16 s t) ∧
    (∃ t, exec (.leq o1 o2) s = .next t ∧ Written o1 o2 1#16 s t) ∧
    (∃ t, exec (.le o1 o2) s = .next t ∧ Written o1 o2 0#16 s t) ∧
    (value1 o1 o2 s ≠ 0#16 → ∃ t, exec (.div o1 o2) s = .next t ∧ Written o1 o2 1#16 s t) ∧
    (value1 o1 o2 s ≠ 0#16 → ∃ t, exec (.rem o1 o2) s = .next t ∧ Written o1 o2 0#16 s t) ∧
    (value1 o1 o2 s = 0#16 →
      exec (.div o1 o2) s = .next (raisedInExecute o1 o2 s (.divideByZero s.pc)) ∧
      exec (.rem o1 o2) s = .next (raisedInExecute o1 o2 s (.divideByZero s.pc)))) ∧
  ∀ (s : State) (r : Reg),
    (∃ t, exec (.mov (.reg r) (.derefReg r)) s = .next t ∧
      Written (.reg r) (.derefReg r) (s.readMem (s.reg r)) s t) ∧
    (∃ t, exec (.mov (.derefReg r) (.reg r)) s = .next t ∧ Written (.derefReg r) (.reg r) (s.reg r) s t)

/-! ### Data movement and arithmetic -/

/-- Rule R90. -/
def Obligations.MovCopiesTheSecondOperand : Prop :=
  EncodedAs 0x00 .mov ∧ ∀ (o1 o2 : Operand) (s : State), TakesWrite o1 s →
    ∃ t, exec (.mov o1 o2) s = .next t ∧ Written o1 o2 (value2 o1 o2 s) s t

/-- Rule R91. -/
def Obligations.AddWritesTheSumModulo65536 : Prop :=
  EncodedAs 0x01 .add ∧ ∀ (o1 o2 : Operand) (s : State), TakesWrite o1 s →
    ∃ t, exec (.add o1 o2) s = .next t ∧ Written o1 o2 (value1 o1 o2 s + value2 o1 o2 s) s t

/-- Rule R92: first operand minus second. -/
def Obligations.SubWritesTheDifferenceModulo65536 : Prop :=
  EncodedAs 0x02 .sub ∧ ∀ (o1 o2 : Operand) (s : State), TakesWrite o1 s →
    ∃ t, exec (.sub o1 o2) s = .next t ∧ Written o1 o2 (value1 o1 o2 s - value2 o1 o2 s) s t

/-- Rule R93: the low 16 bits of the product. -/
def Obligations.MulWritesTheLowHalfOfTheProduct : Prop :=
  EncodedAs 0x03 .mul ∧ ∀ (o1 o2 : Operand) (s : State), TakesWrite o1 s →
    ∃ t, exec (.mul o1 o2) s = .next t ∧ Written o1 o2 (value1 o1 o2 s * value2 o1 o2 s) s t

/-- Rule R94: the unsigned quotient; a zero divisor raises, whatever operand 1 is. -/
def Obligations.DivWritesTheQuotientOrRaises : Prop :=
  EncodedAs 0x04 .div ∧ ∀ (o1 o2 : Operand) (s : State),
    (value2 o1 o2 s ≠ 0#16 → TakesWrite o1 s →
      ∃ t, exec (.div o1 o2) s = .next t ∧ Written o1 o2 (value1 o1 o2 s / value2 o1 o2 s) s t) ∧
    (value2 o1 o2 s = 0#16 → exec (.div o1 o2) s = .next (raisedInExecute o1 o2 s (.divideByZero s.pc)))

/-- Rule R95: the unsigned remainder; a zero divisor raises, whatever operand 1 is. -/
def Obligations.RemWritesTheRemainderOrRaises : Prop :=
  EncodedAs 0x05 .rem ∧ ∀ (o1 o2 : Operand) (s : State),
    (value2 o1 o2 s ≠ 0#16 → TakesWrite o1 s →
      ∃ t, exec (.rem o1 o2) s = .next t ∧ Written o1 o2 (value1 o1 o2 s % value2 o1 o2 s) s t) ∧
    (value2 o1 o2 s = 0#16 → exec (.rem o1 o2) s = .next (raisedInExecute o1 o2 s (.divideByZero s.pc)))

/-- Rules R95 and R96: quotient and remainder of the same operands recombine exactly, without wrap-around, and the
remainder is below the divisor. -/
def Obligations.QuotientAndRemainderRecombine : Prop :=
  ∀ a b : Word, b ≠ 0#16 →
    a.toNat = b.toNat * (quotientWord a b).toNat + (remainderWord a b).toNat ∧ (remainderWord a b).toNat < b.toNat

/-! ### Logic and comparison -/

/-- Rule R100: logical negation of the second operand. -/
def Obligations.NotWritesTheTruthNegation : Prop :=
  EncodedAs 0x06 .not ∧ ∀ (o1 o2 : Operand) (s : State), TakesWrite o1 s →
    ∃ t, exec (.not o1 o2) s = .next t ∧ Written o1 o2 (if value2 o1 o2 s = 0#16 then 1#16 else 0#16) s t

/-- Rule R101, bit by bit. -/
def Obligations.AndWritesTheBitwiseAnd : Prop :=
  EncodedAs 0x07 .and ∧ ∀ (o1 o2 : Operand) (s : State), TakesWrite o1 s →
    ∃ t v, exec (.and o1 o2) s = .next t ∧ Written o1 o2 v s t ∧
      ∀ n, v.getLsbD n = ((value1 o1 o2 s).getLsbD n && (value2 o1 o2 s).getLsbD n)

/-- Rule R102, bit by bit. -/
def Obligations.OrWritesTheBitwiseOr : Prop :=
  EncodedAs 0x08 .or ∧ ∀ (o1 o2 : Operand) (s : State), TakesWrite o1 s →
    ∃ t v, exec (.or o1 o2) s = .next t ∧ Written o1 o2 v s t ∧
      ∀ n, v.getLsbD n = ((value1 o1 o2 s).getLsbD n || (value2 o1 o2 s).getLsbD n)

/-- Rule R103, bit by bit. -/
def Obligations.XorWritesTheBitwiseExclusiveOr : Prop :=
  EncodedAs 0x09 .xor ∧ ∀ (o1 o2 : Operand) (s : State), TakesWrite o1 s →
    ∃ t v, exec (.xor o1 o2) s = .next t ∧ Written o1 o2 v s t ∧
      ∀ n, v.getLsbD n = ((value1 o1 o2 s).getLsbD n ^^ (value2 o1 o2 s).getLsbD n)

/-- Rule R104: 1 if equal, else 0. -/
def Obligations.EqWritesTheEqualityTest : Prop :=
  EncodedAs 0x0A .eq ∧ ∀ (o1 o2 : Operand) (s : State), TakesWrite o1 s →
    ∃ t, exec (.eq o1 o2) s = .next t ∧
      Written o1 o2 (if value1 o1 o2 s = value2 o1 o2 s then 1#16 else 0#16) s t

/-- Rule R105: strict unsigned less-than. -/
def Obligations.LeWritesTheStrictComparison : Prop :=
  EncodedAs 0x0B .le ∧ ∀ (o1 o2 : Operand) (s : State), TakesWrite o1 s →
    ∃ t, exec (.le o1 o2) s = .next t ∧
      Written o1 o2 (if (value1 o1 o2 s).toNat < (value2 o1 o2 s).toNat then 1#16 else 0#16) s t

/-- Rule R106: unsigned less-than-or-equal. -/
def Obligations.LeqWritesTheComparison : Prop :=
  EncodedAs 0x0C .leq ∧ ∀ (o1 o2 : Operand) (s : State), TakesWrite o1 s →
    ∃ t, exec (.leq o1 o2) s = .next t ∧
      Written o1 o2 (if (value1 o1 o2 s).toNat ≤ (value2 o1 o2 s).toNat then 1#16 else 0#16) s t

/-! ### Control transfer and input/output -/

/-- Rule R110: the next fetch is at the second operand's value when the first is not zero, else at `A + k + 1`. -/
def Obligations.JnzJumpsToTheSecondOperand : Prop :=
  EncodedAs 0x0D .jnz ∧ ∀ (o1 o2 : Operand) (s : State),
    ∃ t, exec (.jnz o1 o2) s = .next t ∧ OnlyPcMoved s t ∧
      t.pc = if value1 o1 o2 s = 0#16 then executePc o1 o2 s + 1 else value2 o1 o2 s

/-- IN with a connected channel whose word is not withheld takes one word, writes it to operand 1 and records it (rule
R111). How the environment's word is held in the state is the model's choice (log entries 6 and 7). -/
def Obligations.InWritesTheDeliveredWord : Prop :=
  EncodedAs 0x0E .inp ∧ ∀ (o1 o2 : Operand) (s : State), TakesWrite o1 s →
    (value2 o1 o2 s).toNat < s.nIn → ¬ Withheld s (value2 o1 o2 s) →
    ∃ t v e, Delivers s (value2 o1 o2 s) v e ∧ exec (.inp o1 o2) s = .next t ∧
      Written o1 o2 v { s with env := e } t

/-- Rule R123: an index that is not below `N_IN` raises; no channel is invoked and nothing is written. -/
def Obligations.InOutOfRangeRaises : Prop :=
  ∀ (o1 o2 : Operand) (s : State), s.nIn ≤ (value2 o1 o2 s).toNat →
    exec (.inp o1 o2) s = .next (raisedInExecute o1 o2 s (.inputChannelRange (value2 o1 o2 s)))

/-- While the environment withholds the word of a connected channel, an IN on it is not enabled (rule R133); the named
stop is the model's form of it (log entry 7). -/
def Obligations.InIsHeldWhileTheWordIsWithheld : Prop :=
  ∀ (o1 o2 : Operand) (s : State), Withheld s (value2 o1 o2 s) →
    exec (.inp o1 o2) s = .fault (.inputHeld (value2 o1 o2 s))

/-- The environment's delivery lifts the hold (rule R133): after a word is offered on the withheld channel, IN completes
with that word (log entry 7). -/
def Obligations.OfferLiftsTheHold : Prop :=
  ∀ (o1 o2 : Operand) (s : State) (v : Word), Withheld s (value2 o1 o2 s) → TakesWrite o1 s →
    ∃ t e, exec (.inp o1 o2) (s.offer (value2 o1 o2 s).toNat v) = .next t ∧
      Written o1 o2 v { s with env := e } t ∧ e.trace = s.env.trace ++ [.input (value2 o1 o2 s) v]

/-- OUT (rules R112 and R124): the first operand is the index, the second the datum; no register or cell is written; an
index that is not below `N_OUT` raises before the channel is invoked. That the invocation of a connected channel always
completes, so that OUT answers a next state, is an assumption (log entry 12). -/
def Obligations.OutSendsTheSecondOperand : Prop :=
  EncodedAs 0x0F .out ∧ ∀ (o1 o2 : Operand) (s : State),
    ((value1 o1 o2 s).toNat < s.nOut →
      ∃ t, exec (.out o1 o2) s = .next t ∧
        OnlyPcMoved
          { s with env := { s.env with trace := s.env.trace ++ [.output (value1 o1 o2 s) (value2 o1 o2 s)] } } t ∧
        t.pc = executePc o1 o2 s + 1) ∧
    (s.nOut ≤ (value1 o1 o2 s).toNat →
      exec (.out o1 o2) s = .next (raisedInExecute o1 o2 s (.outputChannelRange (value1 o1 o2 s))))

/-- Control moves sequentially to `A + k + 1` unless a JNZ is taken or operand 1 of a writing instruction is PC (rule
R113). -/
def Obligations.ControlIsSequentialOtherwise : Prop :=
  ∀ (i : Instr) (s t : State), exec i s = .next t → ¬ t.Faulted →
    ¬ (i.op = .jnz ∧ value1 i.op1 i.op2 s ≠ 0#16) → ¬ (Writes i.op ∧ i.op1 = .reg .pc) →
    t.pc = executePc i.op1 i.op2 s + 1

/-! ### Faults -/

/-- Rule R125: with `IMM_WRITE = fault` a result for an immediate first operand raises after everything before the
store: a zero divisor has raised already, an IN has taken its word. With `discard` it is never raised. -/
def Obligations.ImmediateWriteRaisesWhenConfigured : Prop :=
  (∀ (op : Op) (u : Word) (o2 : Operand) (s : State), Writes op → s.cfg.immWrite = .fault →
    (op ≠ .inp → (op = .div ∨ op = .rem → value2 (.imm u) o2 s ≠ 0#16) →
      exec (op.instr (.imm u) o2) s = .next (raisedInExecute (.imm u) o2 s (.immediateWrite s.pc))) ∧
    (op = .div ∨ op = .rem → value2 (.imm u) o2 s = 0#16 →
      exec (op.instr (.imm u) o2) s = .next (raisedInExecute (.imm u) o2 s (.divideByZero s.pc))) ∧
    (op = .inp → (value2 (.imm u) o2 s).toNat < s.nIn → ¬ Withheld s (value2 (.imm u) o2 s) →
      ∃ v e, Delivers s (value2 (.imm u) o2 s) v e ∧
        exec (op.instr (.imm u) o2) s =
          .next (raisedInExecute (.imm u) o2 { s with env := e } (.immediateWrite s.pc)))) ∧
  (∀ (i : Instr) (s t : State) (a : Word), s.cfg.immWrite = .discard → ¬ s.Faulted → exec i s = .next t →
    t.runState ≠ .faulted (.immediateWrite a))

/-- With `IMM_WRITE = discard` a write to an immediate changes no register and no cell, the immediate word in memory
included; the instruction completes (rule R77). -/
def Obligations.DiscardedWriteChangesNothing : Prop :=
  ∀ (op : Op) (u : Word) (o2 : Operand) (s : State), Writes op → s.cfg.immWrite = .discard → op ≠ .inp →
    (op = .div ∨ op = .rem → value2 (.imm u) o2 s ≠ 0#16) →
    ∃ t, exec (op.instr (.imm u) o2) s = .next t ∧ OnlyPcMoved s t ∧ t.pc = executePc (.imm u) o2 s + 1

/-- A step that raises changes nothing but `pc`, which is `A`, `A + 1` or `A + 2`, and the run state with its cause. The
one exception is an IN stopped at its store, with the cause `ImmediateWrite`: its channel has been invoked (rules R120,
R125 and R126). How the environment's word is held is the model's choice (log entry 6), and so is that a raise is a next
state (log entry 8). -/
def Obligations.FaultIsPrecise : Prop :=
  ∀ (s t : State) (c : FaultCause), step s = .next t → t.runState = .faulted c →
    (∀ r, r ≠ .pc → t.reg r = s.reg r) ∧ (∀ b, t.readMem b = s.readMem b) ∧
    (t.pc = s.pc ∨ t.pc = s.pc + 1 ∨ t.pc = s.pc + 2) ∧ t.faultCause = some c ∧ t.cfg = s.cfg ∧
    (t.env = s.env ∨
      ∃ o1 o2 rest v, c = .immediateWrite s.pc ∧
        decode s.cfg.opcodeMap [s.readMem s.pc, s.readMem (s.pc + 1), s.readMem (s.pc + 2)] =
          .ok (.inp o1 o2, rest) ∧
        Delivers s (value2 o1 o2 s) v t.env) ∧
    ∀ n, c ≠ .loadCapacity n

/-- An instruction raises exactly under the conditions of rule R120, so at most one cause applies to a step (rule R129).
-/
def Obligations.RaisesExactlyUnderTheListedConditions : Prop :=
  ∀ (i : Instr) (s t : State), ¬ s.Faulted → exec i s = .next t →
    ∀ c, t.runState = .faulted c ↔ FaultsWith i s c

/-- Every instruction answers a next state for every operand form and every state, with one exception that the
environment lifts: an IN whose word is withheld (rules R131 and R133). That such an IN answers `inputHeld`, and what a
withheld word is, is the model's form (log entry 7); that a raise counts as a next state is log entry 8; that OUT never
stops rests on the assumption that an output channel always accepts its word (log entry 12). -/
def Obligations.OnlyAWithheldInputStopsAnInstruction : Prop :=
  ∀ (i : Instr) (s : State), (∃ t, exec i s = .next t) ∨
    (i.op = .inp ∧ Withheld s (value2 i.op1 i.op2 s) ∧ exec i s = .fault (.inputHeld (value2 i.op1 i.op2 s)))

/-! ### Memory -/

/-- A read gives the last word written to that cell, and a write leaves every other cell alone (rules R34 and R38). -/
def Obligations.ReadGivesTheLastWrite : Prop :=
  ∀ (s : State) (a b v : Word), (s.writeMem a v).readMem b = if b = a then v else s.readMem b

/-- A word that an instruction stores where `pc` then points is the very next word fetched, and the instruction itself
has run with the words it had read (rules R41 and R149): for every writing instruction that stores to that cell, the
word fetched is its result. How IN's word is held is the model's choice (log entry 6). -/
def Obligations.StoredWordIsFetchedNext : Prop :=
  ∀ (s t : State) (i : Instr) (rest : List Word), s.Enabled → s.pc ≠ 0xFFFF#16 →
    decode s.cfg.opcodeMap [s.readMem s.pc, s.readMem (s.pc + 1), s.readMem (s.pc + 2)] = .ok (i, rest) →
    step s = .next t → ¬ t.Faulted → Writes i.op → (resolve i.op1 s).1 = .mem t.pc →
    ∃ v, t.fetchWords.head? = some v ∧
      (i.op ≠ .inp → resultWord i.op (value1 i.op1 i.op2 s) (value2 i.op1 i.op2 s) = some v) ∧
      (i.op = .inp → Delivers s (value2 i.op1 i.op2 s) v t.env)

/-! ### Load and reset -/

/-- What a load of at most 65536 words leaves, from any state (rule R140). That the event trace starts empty is rule
R22's (decision D8); that the port groups keep the words offered on them and the count of draws is the model's choice
(log entry 12). -/
def Obligations.LoadPlacesTheImage : Prop :=
  ∀ (s : State) (image : List Word), image.length ≤ 65536 →
    (∀ (a : Nat) (w : Word), image[a]? = some w → (s.load image).readMem (BitVec.ofNat 16 a) = w) ∧
    (∀ a : Word, image.length ≤ a.toNat → (s.load image).readMem a = s.readMem a) ∧
    (∀ r, r = .r0 ∨ r = .r1 ∨ r = .r2 ∨ r = .r3 → (s.load image).reg r = 0#16) ∧
    (s.load image).reg .sb = BitVec.ofNat 16 image.length ∧ (s.load image).reg .sp = BitVec.ofNat 16 image.length ∧
    (s.load image).pc = 0#16 ∧ (s.load image).runState = .ready ∧ (s.load image).faultCause = none ∧
    (s.load image).env = { s.env with trace := [] } ∧ (s.load image).cfg = s.cfg

/-- Rule R141: an image of more than 65536 words is refused whole: Faulted with `LoadCapacity`, nothing copied, no step
taken. -/
def Obligations.LoadRefusesALongImage : Prop :=
  ∀ (s : State) (image : List Word), 65536 < image.length →
    s.load image = s.raise (.loadCapacity image.length) ∧ (s.load image).faultCause = some (.loadCapacity image.length) ∧
    ∀ t, step (s.load image) ≠ .next t

/-- A load leaves Halted and Faulted as it leaves any state: what it gives depends on memory, configuration and port
groups alone (rule R142; that it keeps what the port groups hold is the model's choice, log entry 12). -/
def Obligations.LoadForgetsTheRun : Prop :=
  ∀ (s t : State) (image : List Word), image.length ≤ 65536 → t.mem = s.mem → t.cfg = s.cfg →
    { t.env with trace := [] } = { s.env with trace := [] } →
    t.load image = s.load image ∧ (s.load image).Enabled

/-- What reset leaves: the values of rule R22 for the image of no words, and cells about which nothing is assumed. That
the reset image is the empty one, and the numbers of channels, are the model's choice (log entries 2, 4 and 6). -/
def Obligations.ResetIsTheLoadOfTheEmptyImage : Prop :=
  State.reset.load [] = State.reset ∧ (∀ r, State.reset.reg r = 0#16) ∧ State.reset.runState = .ready ∧
  State.reset.faultCause = none ∧ State.reset.env.trace = [] ∧ State.reset.cfg = Config.standard ∧
  ∀ a, State.reset.readMem a = Config.memInit a

/-! ### Invariants and whole-machine rules -/

/-- The invariant holds at reset. -/
def Obligations.ResetMeetsTheInvariant : Prop := State.reset.Inv

/-- Every step keeps the invariant: memory in canonical form within 65536 cells (rules R15 and R31), the sentinel in
`pc` of a halted machine (rule R144), a trace of connected channels only (rules R111 and R112). -/
def Obligations.StepKeepsTheInvariant : Prop :=
  ∀ s t : State, s.Inv → step s = .next t → t.Inv

/-- The actions of the environment keep it too: a load of any image, and a word offered on any channel (rules R21, R140
and R141). The offer is the model's form of the environment's delivery (log entry 6). -/
def Obligations.EnvironmentKeepsTheInvariant : Prop :=
  ∀ s : State, s.Inv → (∀ image, (s.load image).Inv) ∧ ∀ i v, (s.offer i v).Inv

/-- No step changes the configuration or the numbers of channels (rules R29 and R143). -/
def Obligations.StepKeepsConfigurationAndChannels : Prop :=
  ∀ s t : State, step s = .next t → t.cfg = s.cfg ∧ t.nIn = s.nIn ∧ t.nOut = s.nOut

/-- The whole-machine frame: the only register other than PC that an instruction changes is the register that is its
first operand, and the only cell the one its first operand addresses; JNZ and OUT change none. So SB and SP are never
touched implicitly (rules R11, R14 and R33). -/
def Obligations.OnlyTheFirstOperandIsWritten : Prop :=
  ∀ (i : Instr) (s t : State), exec i s = .next t →
    (∀ r, r ≠ .pc → t.reg r ≠ s.reg r → Writes i.op ∧ i.op1 = .reg r) ∧
    (∀ b, t.readMem b ≠ s.readMem b → Writes i.op ∧ (resolve i.op1 s).1 = .mem b)

/-- The event trace grows by at most one entry a step, an input by IN and an output by OUT only (rules R19 and R114). -/
def Obligations.OnlyInAndOutReachOutside : Prop :=
  ∀ (i : Instr) (s t : State), exec i s = .next t →
    (t.env = s.env) ∨
    (i.op = .inp ∧ ∃ v, t.env.trace = s.env.trace ++ [.input (value2 i.op1 i.op2 s) v] ∧ t.nOut = s.nOut) ∨
    (i.op = .out ∧ t.env =
      { s.env with trace := s.env.trace ++ [.output (value1 i.op1 i.op2 s) (value2 i.op1 i.op2 s)] })

/-- Nothing the environment holds can be seen by an instruction other than IN and OUT (rules R20 and R21). -/
def Obligations.EnvironmentIsInvisibleToTheOthers : Prop :=
  ∀ (i : Instr) (s t : State) (e : Environment), i.op ≠ .inp → i.op ≠ .out → exec i s = .next t →
    exec i { s with env := e } = .next { t with env := e }

/-- Along a run the event trace only grows at its end, in program order (rule R19). -/
def Obligations.RunsExtendTheTrace : Prop :=
  ∀ s t : State, Reaches s t → s.env.trace <+: t.env.trace

/-- Every state of a run from a state that meets the invariant meets it, and a halted or faulted state has no successor
in the run (rules R16, R81 and R144). -/
def Obligations.RunsKeepTheInvariantAndEnd : Prop :=
  ∀ s t : State, Reaches s t → (s.Inv → t.Inv) ∧ (s.EndedWell ∨ s.Faulted → t = s)
end

