-- ==== Sys2Proof/Laws/Decode.lean ====
section
/-! SUPPORT. The decoder's small lemmas: the fields of an instruction word, what one operand field can decode to, and
the inversion of a decoded instruction. -/

namespace Sys2Proof

@[simp] theorem Op.instr_op (op : Op) (o1 o2 : Operand) : (op.instr o1 o2).op = op := by cases op <;> rfl
@[simp] theorem Op.instr_operands (op : Op) (o1 o2 : Operand) : (op.instr o1 o2).operands = (o1, o2) := by
  cases op <;> rfl

theorem Operand.field_lt (o : Operand) : o.field < 16 := by
  cases o with
  | reg r => cases r <;> simp [Operand.field, Reg.ordinal]
  | imm v => simp [Operand.field]
  | derefReg r => cases r <;> simp [Operand.field, Reg.ordinal]
  | derefImm v => simp [Operand.field]

/-- The fields of a word as quotients and remainders (rule R50). -/
theorem field_values (w : Word) :
    (opcodeField w).toNat = w.toNat / 256 ∧ (field1 w).toNat = w.toNat / 16 % 16 ∧ (field2 w).toNat = w.toNat % 16 := by
  have := w.isLt
  simp only [opcodeField, field1, field2, BitVec.extractLsb'_toNat, Nat.shiftRight_eq_div_pow,
    Nat.reducePow]
  exact ⟨by omega, trivial, by omega⟩

/-- The fields of a word that was put together from them (rule R50). -/
theorem instrWord_fields (opc f1 f2 : Nat) (h1 : f1 < 16) (h2 : f2 < 16) :
    opcodeField (instrWord opc f1 f2) = BitVec.ofNat 8 opc ∧ field1 (instrWord opc f1 f2) = BitVec.ofNat 4 f1 ∧
    field2 (instrWord opc f1 f2) = BitVec.ofNat 4 f2 := by
  simp only [← BitVec.toNat_inj, opcodeField, field1, field2, instrWord, BitVec.extractLsb'_toNat, BitVec.toNat_ofNat,
    Nat.shiftRight_eq_div_pow, Nat.reducePow]
  omega

/-- A field and the words an operand is encoded by decode to that operand. -/
theorem decodeOperandField_field (o : Operand) (rest : List Word) :
    decodeOperandField (BitVec.ofNat 4 o.field) (o.immediates ++ rest) = .ok (o, rest) := by
  cases o with
  | reg r => cases r <;> rfl
  | imm v => show decodeOperandField 7#4 (v :: rest) = _; rfl
  | derefReg r => cases r <;> rfl
  | derefImm v => show decodeOperandField 15#4 (v :: rest) = _; rfl

/-- What a decoded operand field was. -/
theorem decodeOperandField_inv {f : BitVec 4} {ws rest : List Word} {o : Operand}
    (h : decodeOperandField f ws = .ok (o, rest)) : ws = o.immediates ++ rest ∧ o.field = f.toNat := by
  unfold decodeOperandField at h
  cases hr : Reg.ofOrdinal (fieldBase f) with
  | some r =>
    simp only [hr] at h
    cases h
    have named : ∀ f : BitVec 4, ∀ r, Reg.ofOrdinal (fieldBase f) = some r →
        (if fieldDeref f then Operand.derefReg r else .reg r).field = f.toNat := by
      intro f r; revert f; cases r <;> decide
    refine ⟨?_, named f r hr⟩
    split <;> rfl
  | none =>
    simp only [hr] at h
    have base7 : ∀ f : BitVec 4, Reg.ofOrdinal (fieldBase f) = none → (if fieldDeref f then 15 else 7) = f.toNat := by
      decide
    have := base7 f hr
    cases ws with
    | nil => cases h
    | cons v ws =>
      cases h
      split <;> simp_all [Operand.field, Operand.immediates]

/-- With a word at hand an operand field always decodes. -/
theorem decodeOperandField_total (f : BitVec 4) (v : Word) (ws : List Word) :
    ∃ o rest, decodeOperandField f (v :: ws) = .ok (o, rest) ∧ (rest = ws ∨ rest = v :: ws) := by
  unfold decodeOperandField
  cases Reg.ofOrdinal (fieldBase f) with
  | some r => exact ⟨_, _, rfl, .inr rfl⟩
  | none => exact ⟨_, _, rfl, .inl rfl⟩

/-- An operation is selected by one of the sixteen defined opcodes (rule R55). -/
theorem decodeOp_inv {m : List Op} {opc : BitVec 8} {op : Op} (h : decodeOp m opc = some op) :
    opc.toNat < 16 ∧ m[opc.toNat]? = some op := by
  unfold decodeOp at h
  split at h
  · cases h
  · rename_i hle
    rw [BitVec.lt_def] at hle
    simp at hle
    exact ⟨by omega, h⟩

/-- What the words of a decoded instruction were. -/
theorem decode_inv {m : List Op} {w : Word} {ws rest : List Word} {i : Instr} (h : decode m (w :: ws) = .ok (i, rest)) :
    decodeOp m (opcodeField w) = some i.op ∧ i.op1.field = (field1 w).toNat ∧ i.op2.field = (field2 w).toNat ∧
    ws = i.op1.immediates ++ i.op2.immediates ++ rest := by
  simp only [decode] at h
  cases hop : decodeOp m (opcodeField w) with
  | none => simp [hop] at h
  | some op =>
    simp only [hop] at h
    cases h1 : decodeOperandField (field1 w) ws with
    | error e => simp [h1] at h
    | ok p1 =>
      obtain ⟨o1, r1⟩ := p1
      simp only [h1] at h
      cases h2 : decodeOperandField (field2 w) r1 with
      | error e => simp [h2] at h
      | ok p2 =>
        obtain ⟨o2, r2⟩ := p2
        simp only [h2] at h
        cases h
        obtain ⟨a1, a2⟩ := decodeOperandField_inv h1
        obtain ⟨b1, b2⟩ := decodeOperandField_inv h2
        simp only [Op.instr_op, Instr.op1, Instr.op2, Op.instr_operands]
        exact ⟨trivial, a2, b2, by rw [a1, b1]; simp⟩

/-- Three words decode to an instruction of the selected operation, or to an illegal opcode; they are never too few. -/
theorem decode_three_words (m : List Op) (w a b : Word) :
    (decodeOp m (opcodeField w) = none ∧ decode m [w, a, b] = .error (.illegalOpcode w)) ∨
    (∃ i rest, decodeOp m (opcodeField w) = some i.op ∧ decode m [w, a, b] = .ok (i, rest)) := by
  cases h : decodeOp m (opcodeField w) with
  | none => exact .inl ⟨rfl, by simp [decode, h]⟩
  | some op =>
    obtain ⟨o1, r1, e1, hr⟩ := decodeOperandField_total (field1 w) a [b]
    have second : ∃ o2 r2, decodeOperandField (field2 w) r1 = .ok (o2, r2) := by
      rcases hr with rfl | rfl
      · obtain ⟨o, r, e, _⟩ := decodeOperandField_total (field2 w) b []; exact ⟨o, r, e⟩
      · obtain ⟨o, r, e, _⟩ := decodeOperandField_total (field2 w) a [b]; exact ⟨o, r, e⟩
    obtain ⟨o2, r2, e2⟩ := second
    exact .inr ⟨op.instr o1 o2, r2, by simp, by simp [decode, h, e1, e2]⟩

end Sys2Proof
end

