-- ==== Sys2Proof/Laws/Memory.lean ====
section
/-! SUPPORT. The laws of the memory list: what a lookup gives after a store, and that every operation keeps the
canonical form `Memory.wf`. -/

namespace Sys2Proof.Machine

theorem Memory.lookup_store (m : Memory) (a b : Nat) (v : Word) :
    (m.store a v).lookup b = if b = a then some v else m.lookup b := by
  induction m with
  | nil => simp [Memory.store, Memory.lookup]
  | cons p rest ih =>
    obtain ⟨c, u⟩ := p
    simp only [Memory.store]
    split
    · simp [Memory.lookup]
    · split
      · subst_vars
        by_cases hb : b = c <;> simp [Memory.lookup, hb]
      · simp only [Memory.lookup, ih]
        by_cases hb : b = c
        · subst hb
          have : b ≠ a := fun h => by subst h; contradiction
          simp [this]
        · simp [hb]

/-- The addresses of a memory after a store. -/
theorem Memory.mem_store {m : Memory} {a : Nat} {v : Word} {p : Cell} (h : p ∈ m.store a v) : p = (a, v) ∨ p ∈ m := by
  induction m with
  | nil => simpa [Memory.store] using h
  | cons q rest ih =>
    obtain ⟨c, u⟩ := q
    simp only [Memory.store] at h
    split at h
    · simpa using h
    · split at h
      · rcases List.mem_cons.1 h with h | h
        · exact .inl h
        · exact .inr (List.mem_cons_of_mem _ h)
      · rcases List.mem_cons.1 h with h | h
        · exact .inr (by simp [h])
        · exact (ih h).imp id (List.mem_cons_of_mem _)

theorem Memory.store_rising (m : Memory) (a : Nat) (v : Word) (h : m.Pairwise (fun p q => p.1 < q.1)) :
    (m.store a v).Pairwise (fun p q => p.1 < q.1) := by
  induction m with
  | nil => simp [Memory.store]
  | cons q rest ih =>
    obtain ⟨c, u⟩ := q
    obtain ⟨hc, hr⟩ := List.pairwise_cons.1 h
    simp only [Memory.store]
    split
    · rename_i hac
      refine List.pairwise_cons.2 ⟨fun p hp => ?_, h⟩
      rcases List.mem_cons.1 hp with rfl | hp
      · exact hac
      · exact Nat.lt_trans hac (hc p hp)
    · split
      · subst_vars
        exact List.pairwise_cons.2 ⟨hc, hr⟩
      · rename_i h1 h2
        refine List.pairwise_cons.2 ⟨fun p hp => ?_, ih hr⟩
        rcases Memory.mem_store hp with rfl | hp
        · simp only; omega
        · exact hc p hp

/-- A store at an address of the machine keeps the canonical form. -/
theorem Memory.store_wf {m : Memory} (h : m.wf) (a : Nat) (ha : a < memWords) (v : Word) : (m.store a v).wf :=
  ⟨Memory.store_rising m a v h.1, fun p hp => by
    rcases Memory.mem_store hp with rfl | hp
    · exact ha
    · exact h.2 p hp⟩

/-- `MemWrite` keeps the canonical form at every address. -/
theorem State.writeMem_wf {s : State} (h : s.mem.wf) (a v : Word) : (s.writeMem a v).mem.wf :=
  Memory.store_wf h a.toNat a.isLt v

/-- Copying an image keeps the canonical form while it stays inside the memory. -/
theorem Memory.storeImage_wf {m : Memory} (h : m.wf) (a : Nat) (ws : List Word) (hfit : a + ws.length ≤ memWords) :
    (m.storeImage a ws).wf := by
  induction ws generalizing m a with
  | nil => exact h
  | cons w ws ih =>
    simp only [List.length_cons] at hfit
    exact ih (Memory.store_wf h a (by omega) w) (a + 1) (by omega)

/-- What a cell holds after an image is copied. -/
theorem Memory.lookup_storeImage (m : Memory) (a b : Nat) (ws : List Word) :
    (m.storeImage a ws).lookup b = if a ≤ b ∧ b < a + ws.length then ws[b - a]? else m.lookup b := by
  induction ws generalizing m a with
  | nil => simp only [Memory.storeImage, List.length_nil]; split <;> [omega; rfl]
  | cons w ws ih =>
    simp only [Memory.storeImage, ih, Memory.lookup_store, List.length_cons]
    by_cases h1 : b = a
    · subst h1; simp
    · by_cases h2 : a ≤ b ∧ b < a + (ws.length + 1)
      · rw [if_pos h2, if_pos (by omega)]
        obtain ⟨d, rfl⟩ : ∃ d, b = a + 1 + d := ⟨b - (a + 1), by omega⟩
        simp [show a + 1 + d - (a + 1) = d by omega, show a + 1 + d - a = d + 1 by omega]
      · rw [if_neg h2, if_neg (by omega), if_neg h1]

end Sys2Proof.Machine
end

