-- ==== Sys2Proof/Laws/State.lean ====
section
/-! SUPPORT. One lemma per field per update of the state, so that no proof unfolds a record update. -/

namespace Sys2Proof.Machine

@[simp] theorem Regs.get_set (x : Regs) (r q : Reg) (v : Word) : (x.set r v).get q = if q = r then v else x.get q := by
  cases r <;> cases q <;> rfl

@[simp] theorem Regs.set_get (x : Regs) (r : Reg) : x.set r (x.get r) = x := by cases r <;> rfl

@[simp] theorem Regs.set_set (x : Regs) (r : Reg) (u v : Word) : (x.set r u).set r v = x.set r v := by cases r <;> rfl

section
variable (s : State)

@[simp] theorem State.setReg_reg (r q : Reg) (v : Word) : (s.setReg r v).reg q = if q = r then v else s.reg q :=
  Regs.get_set s.regs r q v
@[simp] theorem State.setReg_mem (r : Reg) (v : Word) : (s.setReg r v).mem = s.mem := rfl
@[simp] theorem State.setReg_runState (r : Reg) (v : Word) : (s.setReg r v).runState = s.runState := rfl
@[simp] theorem State.setReg_cfg (r : Reg) (v : Word) : (s.setReg r v).cfg = s.cfg := rfl
@[simp] theorem State.setReg_env (r : Reg) (v : Word) : (s.setReg r v).env = s.env := rfl
@[simp] theorem State.setReg_readMem (r : Reg) (v b : Word) : (s.setReg r v).readMem b = s.readMem b := rfl
@[simp] theorem State.setReg_nIn (r : Reg) (v : Word) : (s.setReg r v).nIn = s.nIn := rfl
@[simp] theorem State.setReg_nOut (r : Reg) (v : Word) : (s.setReg r v).nOut = s.nOut := rfl
@[simp] theorem State.setReg_pc (r : Reg) (v : Word) : (s.setReg r v).pc = if .pc = r then v else s.pc :=
  Regs.get_set s.regs r .pc v

@[simp] theorem State.setPc_pc (v : Word) : (s.setPc v).pc = v := by simp [State.setPc]
@[simp] theorem State.setPc_reg (q : Reg) (v : Word) : (s.setPc v).reg q = if q = .pc then v else s.reg q :=
  s.setReg_reg .pc q v
@[simp] theorem State.setPc_mem (v : Word) : (s.setPc v).mem = s.mem := rfl
@[simp] theorem State.setPc_runState (v : Word) : (s.setPc v).runState = s.runState := rfl
@[simp] theorem State.setPc_cfg (v : Word) : (s.setPc v).cfg = s.cfg := rfl
@[simp] theorem State.setPc_env (v : Word) : (s.setPc v).env = s.env := rfl
@[simp] theorem State.setPc_readMem (v b : Word) : (s.setPc v).readMem b = s.readMem b := rfl
@[simp] theorem State.setPc_nIn (v : Word) : (s.setPc v).nIn = s.nIn := rfl
@[simp] theorem State.setPc_nOut (v : Word) : (s.setPc v).nOut = s.nOut := rfl
@[simp] theorem State.setPc_setPc (u v : Word) : (s.setPc u).setPc v = s.setPc v := by
  simp [State.setPc, State.setReg]
@[simp] theorem State.setPc_self : s.setPc s.pc = s := by
  cases s; simp [State.setPc, State.setReg, State.pc, State.reg]
@[simp] theorem State.reg_pc : s.reg .pc = s.pc := rfl

@[simp] theorem State.writeMem_reg (a v : Word) (q : Reg) : (s.writeMem a v).reg q = s.reg q := rfl
@[simp] theorem State.writeMem_pc (a v : Word) : (s.writeMem a v).pc = s.pc := rfl
@[simp] theorem State.writeMem_mem (a v : Word) : (s.writeMem a v).mem = s.mem.store a.toNat v := rfl
@[simp] theorem State.writeMem_runState (a v : Word) : (s.writeMem a v).runState = s.runState := rfl
@[simp] theorem State.writeMem_cfg (a v : Word) : (s.writeMem a v).cfg = s.cfg := rfl
@[simp] theorem State.writeMem_env (a v : Word) : (s.writeMem a v).env = s.env := rfl
@[simp] theorem State.writeMem_nIn (a v : Word) : (s.writeMem a v).nIn = s.nIn := rfl
@[simp] theorem State.writeMem_nOut (a v : Word) : (s.writeMem a v).nOut = s.nOut := rfl

@[simp] theorem State.setRunState_reg (r : RunState) (q : Reg) : (s.setRunState r).reg q = s.reg q := rfl
@[simp] theorem State.setRunState_pc (r : RunState) : (s.setRunState r).pc = s.pc := rfl
@[simp] theorem State.setRunState_mem (r : RunState) : (s.setRunState r).mem = s.mem := rfl
@[simp] theorem State.setRunState_runState (r : RunState) : (s.setRunState r).runState = r := rfl
@[simp] theorem State.setRunState_cfg (r : RunState) : (s.setRunState r).cfg = s.cfg := rfl
@[simp] theorem State.setRunState_env (r : RunState) : (s.setRunState r).env = s.env := rfl
@[simp] theorem State.setRunState_readMem (r : RunState) (b : Word) : (s.setRunState r).readMem b = s.readMem b := rfl
@[simp] theorem State.setRunState_nIn (r : RunState) : (s.setRunState r).nIn = s.nIn := rfl
@[simp] theorem State.setRunState_nOut (r : RunState) : (s.setRunState r).nOut = s.nOut := rfl
@[simp] theorem State.setRunState_setRunState (q r : RunState) :
    (s.setRunState q).setRunState r = s.setRunState r := rfl

@[simp] theorem State.raise_reg (c : FaultCause) (q : Reg) : (s.raise c).reg q = s.reg q := rfl
@[simp] theorem State.raise_pc (c : FaultCause) : (s.raise c).pc = s.pc := rfl
@[simp] theorem State.raise_mem (c : FaultCause) : (s.raise c).mem = s.mem := rfl
@[simp] theorem State.raise_runState (c : FaultCause) : (s.raise c).runState = .faulted c := rfl
@[simp] theorem State.raise_cfg (c : FaultCause) : (s.raise c).cfg = s.cfg := rfl
@[simp] theorem State.raise_env (c : FaultCause) : (s.raise c).env = s.env := rfl
@[simp] theorem State.raise_readMem (c : FaultCause) (b : Word) : (s.raise c).readMem b = s.readMem b := rfl
@[simp] theorem State.raise_nIn (c : FaultCause) : (s.raise c).nIn = s.nIn := rfl
@[simp] theorem State.raise_nOut (c : FaultCause) : (s.raise c).nOut = s.nOut := rfl

@[simp] theorem State.record_reg (e : Event) (q : Reg) : (s.record e).reg q = s.reg q := rfl
@[simp] theorem State.record_pc (e : Event) : (s.record e).pc = s.pc := rfl
@[simp] theorem State.record_mem (e : Event) : (s.record e).mem = s.mem := rfl
@[simp] theorem State.record_runState (e : Event) : (s.record e).runState = s.runState := rfl
@[simp] theorem State.record_cfg (e : Event) : (s.record e).cfg = s.cfg := rfl
@[simp] theorem State.record_env (e : Event) : (s.record e).env = { s.env with trace := s.env.trace ++ [e] } := rfl
@[simp] theorem State.record_readMem (e : Event) (b : Word) : (s.record e).readMem b = s.readMem b := rfl
@[simp] theorem State.record_nIn (e : Event) : (s.record e).nIn = s.nIn := rfl
@[simp] theorem State.record_nOut (e : Event) : (s.record e).nOut = s.nOut := rfl

end

end Sys2Proof.Machine
end

