-- ==== Sys2Proof/Laws/Operands.lean ====
section
/-! SUPPORT. What resolving the operands and writing back can do, said once. -/

namespace Sys2Proof.Machine

@[simp] theorem Operand.k_reg (r : Reg) : (Operand.reg r).k = 0 := rfl
@[simp] theorem Operand.k_imm (v : Word) : (Operand.imm v).k = 1 := rfl
@[simp] theorem Operand.k_derefReg (r : Reg) : (Operand.derefReg r).k = 0 := rfl
@[simp] theorem Operand.k_derefImm (v : Word) : (Operand.derefImm v).k = 1 := rfl

/-- Decoding an operand moves `pc` over its immediate and changes nothing else (rule R74). -/
@[simp] theorem resolve_state (o : Operand) (s : State) : (resolve o s).2 = s.setPc (s.pc + BitVec.ofNat 16 o.k) := by
  cases o <;> simp [resolve, State.consumeImmediate]

/-- The execute phase: operand 1's slot from the state before, operand 2's from the state that operand 1 leaves, both
read in the state with `pc = A + k` (rules R72 and R75). -/
theorem withSlots_eq (o1 o2 : Operand) (s : State) (arm : Slot → Slot → State → Result) :
    withSlots o1 o2 s arm =
      arm (resolve o1 s).1 (resolve o2 (s.setPc (s.pc + BitVec.ofNat 16 o1.k))).1
        (s.setPc (s.pc + BitVec.ofNat 16 (o1.k + o2.k))) := by
  simp [withSlots, BitVec.ofNat_add, BitVec.add_assoc]

/-- Everything a write-back can do (rules R77, R79 and R125). -/
theorem writeBack_cases (a : Word) (d : Slot) (v : Word) (s : State) :
    (∃ r, d = .reg r ∧ writeBack a d v s = .next ((s.setReg r v).setPc ((s.setReg r v).pc + 1))) ∨
    (∃ b, d = .mem b ∧ writeBack a d v s = .next ((s.writeMem b v).setPc (s.pc + 1))) ∨
    (∃ u, d = .imm u ∧ s.cfg.immWrite = .discard ∧ writeBack a d v s = .next (s.setPc (s.pc + 1))) ∨
    (∃ u, d = .imm u ∧ s.cfg.immWrite = .fault ∧ writeBack a d v s = .next (s.raise (.immediateWrite a))) := by
  cases d with
  | reg r => exact .inl ⟨r, rfl, rfl⟩
  | mem b => exact .inr (.inl ⟨b, rfl, rfl⟩)
  | imm u =>
    cases h : s.cfg.immWrite with
    | discard => exact .inr (.inr (.inl ⟨u, rfl, rfl, by simp [writeBack, h, loopIncrement]⟩))
    | fault => exact .inr (.inr (.inr ⟨u, rfl, rfl, by simp [writeBack, h, takeFault]⟩))

/-- Everything an input invocation can do (rules R18 and R133). -/
theorem State.inPort_cases (s : State) (i : Word) :
    (s.inPort i = none ∧ s.nIn ≤ i.toNat) ∨
    (∃ ch, s.env.inputs[i.toNat]? = some ch ∧
      ((∃ v later, ch.offered = v :: later ∧
          s.inPort i = some (v, (s.setChannel i.toNat { ch with offered := later }).record (.input i v))) ∨
        (ch.offered = [] ∧ ch.holds = false ∧
          s.inPort i = some (Config.inPort s.env.draws i, s.countDraw.record (.input i (Config.inPort s.env.draws i)))) ∨
        (ch.offered = [] ∧ ch.holds = true ∧ s.inPort i = none))) := by
  unfold State.inPort
  cases h : s.env.inputs[i.toNat]? with
  | none => exact .inl ⟨rfl, List.getElem?_eq_none_iff.1 h⟩
  | some ch =>
    refine .inr ⟨ch, rfl, ?_⟩
    obtain ⟨offered, holds⟩ := ch
    cases offered with
    | cons v later => exact .inl ⟨v, later, rfl, rfl⟩
    | nil => cases holds <;> simp

end Sys2Proof.Machine
end

