-- ==== Sys2Proof/Laws/PerInstr.lean ====
section
/-! SUPPORT. Facts about each instruction as syntax, one lemma per constructor. -/

namespace Sys2Proof.Laws.Rebuild

/-- An instruction is its operation and its two operands and nothing else (spec/30_encoding.md rule R50). -/
def Statement (i : Instr) : Prop := i.op.instr i.op1 i.op2 = i

theorem mov (o1 o2 : Operand) : Statement (.mov o1 o2) := rfl
theorem add (o1 o2 : Operand) : Statement (.add o1 o2) := rfl
theorem sub (o1 o2 : Operand) : Statement (.sub o1 o2) := rfl
theorem mul (o1 o2 : Operand) : Statement (.mul o1 o2) := rfl
theorem div (o1 o2 : Operand) : Statement (.div o1 o2) := rfl
theorem rem (o1 o2 : Operand) : Statement (.rem o1 o2) := rfl
theorem not (o1 o2 : Operand) : Statement (.not o1 o2) := rfl
theorem and (o1 o2 : Operand) : Statement (.and o1 o2) := rfl
theorem or (o1 o2 : Operand) : Statement (.or o1 o2) := rfl
theorem xor (o1 o2 : Operand) : Statement (.xor o1 o2) := rfl
theorem eq (o1 o2 : Operand) : Statement (.eq o1 o2) := rfl
theorem le (o1 o2 : Operand) : Statement (.le o1 o2) := rfl
theorem leq (o1 o2 : Operand) : Statement (.leq o1 o2) := rfl
theorem jnz (o1 o2 : Operand) : Statement (.jnz o1 o2) := rfl
theorem inp (o1 o2 : Operand) : Statement (.inp o1 o2) := rfl
theorem out (o1 o2 : Operand) : Statement (.out o1 o2) := rfl

end Sys2Proof.Laws.Rebuild
end

