-- ==== Sys2Proof/Laws/Step.lean ====
section
/-! SUPPORT. What a step can do, said once, and what the shared forms of the arms can do. -/

namespace Sys2Proof.Machine

/-- Everything the shared form of DIV and REM can do (rules R94 and R95). -/
theorem divideArm_cases (f : Word → Word → Word) (a : Word) (d x : Slot) (s : State) :
    (s.readSlot x = 0#16 ∧ divideArm f a d x s = .next (s.raise (.divideByZero a))) ∨
    (s.readSlot x ≠ 0#16 ∧ divideArm f a d x s = combine f a d x s) := by
  by_cases h : s.readSlot x = 0#16
  · exact .inl ⟨h, by simp [divideArm, h, takeFault]⟩
  · exact .inr ⟨h, by simp [divideArm, h]⟩

/-- A step is taken in an enabled state only (rules R16 and R70). -/
theorem step_enabled {s t : State} (h : step s = .next t) : s.Enabled := by
  cases hr : s.runState with
  | ready => exact .inl hr
  | running => exact .inr hr
  | halted => simp [step, controlLoop, hr] at h
  | faulted c => simp [step, controlLoop, hr] at h

theorem step_eq_haltOrRun {s : State} (h : s.Enabled) : step s = haltOrRun s := by
  rcases h with h | h <;> simp [step, controlLoop, h]

/-- Everything an iteration can do after the halt check (rules R70 and R71). -/
theorem runInstruction_cases (s : State) :
    (∃ i, (s.setRunState .running).fetch = .ok i ∧ runInstruction s = exec i (s.setRunState .running)) ∨
    (∃ e, (s.setRunState .running).fetch = .error e ∧
      runInstruction s = .next (s.raise (.illegalOpcode (s.readMem s.pc)))) := by
  unfold runInstruction
  cases h : (s.setRunState .running).fetch with
  | ok i => exact .inl ⟨i, rfl, by simp [h]⟩
  | error e => exact .inr ⟨e, rfl, by simp [h, takeFault, State.raise]⟩

/-- Everything a step can do that answers a next state: it halts, it runs the fetched instruction, or it raises
`IllegalOpcode` (rule R70). -/
theorem step_cases {s t : State} (h : step s = .next t) :
    s.Enabled ∧
    ((s.pc = haltPc ∧ t = s.setRunState .halted) ∨
      (s.pc ≠ haltPc ∧ ∃ i, (s.setRunState .running).fetch = .ok i ∧ exec i (s.setRunState .running) = .next t) ∨
      (s.pc ≠ haltPc ∧ t = s.raise (.illegalOpcode (s.readMem s.pc)))) := by
  refine ⟨step_enabled h, ?_⟩
  rw [step_eq_haltOrRun (step_enabled h), haltOrRun] at h
  split at h
  · rename_i hp
    cases h; exact .inl ⟨hp, rfl⟩
  · rename_i hp
    rcases runInstruction_cases s with ⟨i, hf, e⟩ | ⟨_, _, e⟩
    · exact .inr (.inl ⟨hp, i, hf, e ▸ h⟩)
    · rw [e] at h; cases h; exact .inr (.inr ⟨hp, rfl⟩)

/-- The two outcomes of a load (rules R140 and R141). -/
theorem State.load_cases (s : State) (image : List Word) :
    (memWords < image.length ∧ s.load image = s.raise (.loadCapacity image.length)) ∨
    (image.length ≤ memWords ∧ (s.load image).mem = s.mem.storeImage loadBase image ∧
      (s.load image).runState = .ready ∧ (s.load image).pc = resetPc ∧ (s.load image).cfg = s.cfg ∧
      (s.load image).env = { s.env with trace := [] }) := by
  by_cases h : memWords < image.length
  · exact .inl ⟨h, if_pos h⟩
  · have e : s.load image = _ := if_neg h
    exact .inr ⟨Nat.le_of_not_lt h, by rw [e], by rw [e], by rw [e]; rfl, by rw [e], by rw [e]⟩

/-- A loaded image keeps memory in canonical form (rule R140). -/
theorem State.load_wf {s : State} (h : s.mem.wf) (image : List Word) : (s.load image).mem.wf := by
  rcases s.load_cases image with ⟨_, e⟩ | ⟨hl, e, _⟩
  · rw [e]; exact h
  · rw [e]; exact Memory.storeImage_wf h loadBase image (by simpa [loadBase] using hl)

end Sys2Proof.Machine
end

