-- ==== Sys2Proof/Tests/Slice0.lean ====
section
/-! SUPPORT. The model's own tests. Expected values come from spec/95_test_vectors.md (the vector's id stands before the
theorem) and from the worked examples of the instruction rules; the witnesses show that the hypotheses of each
statement are met together. -/

namespace Sys2Proof.Tests

open Sys2Proof.Machine Sys2Proof.Claims

/-! ### Helpers -/

/-- A check on the next state; a stop fails it. -/
def after (r : Result) (p : State → Bool) : Bool :=
  match r with
  | .next t => p t
  | _ => false

/-- Cells written one after the other. -/
def cells (s : State) : List (Word × Word) → State
  | [] => s
  | (a, v) :: rest => cells (s.writeMem a v) rest

/-- The start of the vectors: instruction at 0x0100, R0 and R1 as given, the listed cells written. -/
def start (r0 r1 : Word) (mem : List (Word × Word)) : State :=
  cells (((State.reset.setPc 0x0100).setReg .r0 r0).setReg .r1 r1) mem

/-- The start with one input channel on which words are offered. -/
def offering (s : State) (words : List Word) : State :=
  { s with env := { s.env with inputs := [{ offered := words, holds := false }] } }

/-- The start with one input channel whose word is withheld. -/
def withholding (s : State) : State := { s with env := { s.env with inputs := [{ offered := [], holds := true }] } }

/-- The alternative configuration `IMM_WRITE = fault`. -/
def immFault (s : State) : State := { s with cfg := { s.cfg with immWrite := .fault } }

/-! ### Well-formedness: each check refuses an ill-formed term -/

theorem test_map_too_short : opcodeMapWellFormed [.mov, .add] = false := by decide
theorem test_map_with_a_repeat : opcodeMapWellFormed (.add :: Config.tableOrder.tail) = false := by decide
theorem test_map_table_order : opcodeMapWellFormed Config.tableOrder = true := by decide
theorem test_instr_without_number : (Instr.mov (.reg .r0) (.imm 5)).wellFormed Config.tableOrder.tail = false := by decide
theorem test_image_too_long : imageWellFormed (List.replicate 65537 0#16) = false := by
  simp only [imageWellFormed, List.length_replicate, memWords]
  decide

/-! ### Decoding: one word for every constructor, opcode * 256 + f1 * 16 + f2 (rules R50, R52, R55) -/

theorem test_decode_mov : decode Config.tableOrder [0x0007, 0x0005] = .ok (.mov (.reg .r0) (.imm 5), []) := by rfl
theorem test_decode_add : decode Config.tableOrder [0x0167, 0x0002] = .ok (.add (.reg .pc) (.imm 2), []) := by rfl
theorem test_decode_sub : decode Config.tableOrder [0x02D7, 0x0001] = .ok (.sub (.derefReg .sp) (.imm 1), []) := by rfl
theorem test_decode_mul : decode Config.tableOrder [0x0323] = .ok (.mul (.reg .r2) (.reg .r3), []) := by rfl
theorem test_decode_div : decode Config.tableOrder [0x0477, 6, 3] = .ok (.div (.imm 6) (.imm 3), []) := by rfl
theorem test_decode_rem : decode Config.tableOrder [0x059F, 0x40] = .ok (.rem (.derefReg .r1) (.derefImm 0x40), []) := by rfl
theorem test_decode_not : decode Config.tableOrder [0x0633] = .ok (.not (.reg .r3) (.reg .r3), []) := by rfl
theorem test_decode_and : decode Config.tableOrder [0x0707, 0x3C3C] = .ok (.and (.reg .r0) (.imm 0x3C3C), []) := by rfl
theorem test_decode_or : decode Config.tableOrder [0x0845] = .ok (.or (.reg .sb) (.reg .sp), []) := by rfl
theorem test_decode_xor : decode Config.tableOrder [0x09EE] = .ok (.xor (.derefReg .pc) (.derefReg .pc), []) := by rfl
theorem test_decode_eq : decode Config.tableOrder [0x0A17, 3, 9] = .ok (.eq (.reg .r1) (.imm 3), [9]) := by rfl
theorem test_decode_le : decode Config.tableOrder [0x0BCA] = .ok (.le (.derefReg .sb) (.derefReg .r2), []) := by rfl
theorem test_decode_leq : decode Config.tableOrder [0x0CB8] = .ok (.leq (.derefReg .r3) (.derefReg .r0), []) := by rfl
theorem test_decode_jnz : decode Config.tableOrder [0x0D77, 1, 0xFFFF] = .ok (.jnz (.imm 1) (.imm 0xFFFF), []) := by rfl
theorem test_decode_in : decode Config.tableOrder [0x0E92] = .ok (.inp (.derefReg .r1) (.reg .r2), []) := by rfl
theorem test_decode_out : decode Config.tableOrder [0x0FFF, 0x40, 0x41] = .ok (.out (.derefImm 0x40) (.derefImm 0x41), []) := by rfl
theorem test_decode_truncated : decode Config.tableOrder [0x0F77, 0x40] = .error .truncated := by rfl

/-- Vectors F1 to F5: the boundary is between 0x0FFF and 0x1000, and the whole opcode byte counts. -/
theorem test_decode_illegal :
    decodeTableWord 16 0x1000 = none ∧ decodeTableWord 16 0x8D01 = none ∧ decodeTableWord 16 0xFFFF = none ∧
    decodeTableWord 16 0x0FFF = some (.out (.derefImm 0) (.derefImm 0)) := by decide

/-! ### One step -/

-- A2
theorem test_mov_two_literals :
    after (step (start 0 0 [(0x100, 0x00FF), (0x101, 0x40), (0x102, 0x41), (0x40, 1), (0x41, 2)]))
      (fun t => t.readMem 0x40 == 2 && t.pc == 0x103) = true := by decide
-- L2-A, f1 = E
theorem test_mov_own_word :
    after (step (start 0 0 [(0x100, 0x00E7), (0x101, 0xBEEF)]))
      (fun t => t.readMem 0x100 == 0xBEEF && t.pc == 0x102) = true := by decide
-- L1-4
theorem test_add_wraps :
    after (step (start 0xFFFF 1 [(0x100, 0x0101)])) (fun t => t.reg .r0 == 0 && t.pc == 0x101) = true := by decide
-- B5
theorem test_add_slot_is_fixed :
    after (step (start 0 0x40 [(0x100, 0x0119), (0x40, 2)])) (fun t => t.reg .r1 == 0x42) = true := by decide
-- L2-B
theorem test_sub_order :
    after (step (start 5 7 [(0x100, 0x0201)])) (fun t => t.reg .r0 == 0xFFFE) = true := by decide
-- B16
theorem test_sub_pc :
    after (step (start 0 0 [(0x100, 0x0267), (0x101, 2)])) (fun t => t.pc == 0x100) = true := by decide
-- L2-B
theorem test_mul_low_half :
    after (step (start 0x1234 0x0010 [(0x100, 0x0301)])) (fun t => t.reg .r0 == 0x2340) = true := by decide
-- L2-B
theorem test_mul_all_ones :
    after (step (start 0xFFFF 0xFFFF [(0x100, 0x0301)])) (fun t => t.reg .r0 == 1) = true := by decide
-- L2-B
theorem test_div_unsigned :
    after (step (start 0xFFFF 2 [(0x100, 0x0401)])) (fun t => t.reg .r0 == 0x7FFF) = true := by decide
-- B10
theorem test_div_by_zero :
    after (step (start 7 0 [(0x100, 0x0407), (0x101, 0)]))
      (fun t => t.faultCause == some (.divideByZero 0x100) && t.pc == 0x101 && t.reg .r0 == 7) = true := by decide
-- L2-B
theorem test_rem_unsigned :
    after (step (start 0x8000 0xFFFF [(0x100, 0x0501)])) (fun t => t.reg .r0 == 0x8000) = true := by decide
-- B11
theorem test_rem_by_zero :
    after (step (start 0 0x50 [(0x100, 0x059F), (0x101, 0x40), (0x50, 9), (0x40, 0)]))
      (fun t => t.faultCause == some (.divideByZero 0x100) && t.pc == 0x101 && t.readMem 0x50 == 9) = true := by decide
-- L2-C
theorem test_not_is_logical :
    after (step (start 0x1234 0x8000 [(0x100, 0x0601)])) (fun t => t.reg .r0 == 0) = true := by decide
-- B19
theorem test_not_pc :
    after (step (start 0 0 [(0x100, 0x0660)])) (fun t => t.pc == 2) = true := by decide
-- L2-C
theorem test_and :
    after (step (start 0xF0F0 0x3C3C [(0x100, 0x0701)])) (fun t => t.reg .r0 == 0x3030) = true := by decide
-- L2-C
theorem test_or :
    after (step (start 0xF0F0 0x3C3C [(0x100, 0x0801)])) (fun t => t.reg .r0 == 0xFCFC) = true := by decide
-- L2-C
theorem test_xor :
    after (step (start 0xF0F0 0x3C3C [(0x100, 0x0901)])) (fun t => t.reg .r0 == 0xCCCC) = true := by decide
-- A3
theorem test_xor_own_word :
    after (step (start 0 0 [(0x100, 0x09EE)])) (fun t => t.readMem 0x100 == 0 && t.pc == 0x101) = true := by decide
-- L2-C
theorem test_eq :
    after (step (start 5 5 [(0x100, 0x0A01)])) (fun t => t.reg .r0 == 1) = true := by decide
-- L2-C
theorem test_le_is_strict :
    after (step (start 5 5 [(0x100, 0x0B01)])) (fun t => t.reg .r0 == 0) = true := by decide
-- L2-C
theorem test_le_unsigned :
    after (step (start 0x7FFF 0x8000 [(0x100, 0x0B01)])) (fun t => t.reg .r0 == 1) = true := by decide
-- L2-C
theorem test_leq_equal :
    after (step (start 5 5 [(0x100, 0x0C01)])) (fun t => t.reg .r0 == 1) = true := by decide
-- L2-C
theorem test_leq_unsigned :
    after (step (start 0xFFFF 1 [(0x100, 0x0C01)])) (fun t => t.reg .r0 == 0) = true := by decide
-- D7
theorem test_jnz_to_zero :
    after (step (start 5 0 [(0x100, 0x0D07), (0x101, 0)])) (fun t => t.pc == 0 && t.runState == .running) = true := by decide
-- D12
theorem test_jnz_pc_condition :
    after (step (cells State.reset [(0, 0x0D67), (1, 0x300)])) (fun t => t.pc == 0x300) = true := by decide
-- E1
theorem test_in :
    after (step (offering (start 0x1111 0 [(0x100, 0x0E01)]) [0xCAFE]))
      (fun t => t.reg .r0 == 0xCAFE && t.env.trace == [.input 0 0xCAFE] && t.pc == 0x101) = true := by decide
-- E8, here with one channel
theorem test_in_range :
    after (step (start 0 0 [(0x100, 0x0E07), (0x101, 0xFFFF)]))
      (fun t => t.faultCause == some (.inputChannelRange 0xFFFF) && t.pc == 0x101) = true := by decide
-- E19
theorem test_out :
    after (step (start 0 0 [(0x100, 0x0FFF), (0x101, 0x40), (0x102, 0x41), (0x40, 0), (0x41, 0x99)]))
      (fun t => t.env.trace == [.output 0 0x99] && t.pc == 0x103) = true := by decide
-- E14
theorem test_out_range :
    after (step (start 5 0 [(0x100, 0x0F00)]))
      (fun t => t.faultCause == some (.outputChannelRange 5) && t.pc == 0x100) = true := by decide
-- F3
theorem test_illegal_opcode :
    after (step (start 0 0 [(0x100, 0x1077), (0x101, 1), (0x102, 2)]))
      (fun t => t.faultCause == some (.illegalOpcode 0x1077) && t.pc == 0x100) = true := by decide
-- G2
theorem test_wrap_at_the_top :
    after (step (cells (State.reset.setPc 0xFFFE) [(0xFFFE, 0x01F7), (0xFFFF, 0x200), (0, 0x0D07), (0x200, 1)]))
      (fun t => t.readMem 0x200 == 0x0D08 && t.pc == 1) = true := by decide
-- G4
theorem test_halt :
    after (step (cells (State.reset.setPc 0xFFFF) [(0xFFFF, 7)]))
      (fun t => t.runState == .halted && t.pc == 0xFFFF && t.reg .r0 == 0) = true := by decide
-- P8e with IMM_WRITE = fault
theorem test_immediate_write_fault :
    after (step (immFault (cells State.reset [(0, 0x0171), (1, 5)])))
      (fun t => t.faultCause == some (.immediateWrite 0) && t.pc == 1) = true := by decide
-- L1-1, second row
theorem test_load :
    (State.reset.load [0x0007, 5, 0x0F10, 0x0D77, 1, 0xFFFF]).reg .sp = 6 ∧
    (State.reset.load [0x0007, 5, 0x0F10, 0x0D77, 1, 0xFFFF]).readMem 5 = 0xFFFF := by decide

/-! ### Witnesses: the hypotheses of each statement hold together -/

/-- The operands of the witnesses. -/
def mov5 : State := start 1 2 [(0x100, 0x0007), (0x101, 5), (0x102, 0)]

theorem takesWrite_reg (r : Reg) (s : State) : TakesWrite (.reg r) s := .inl (by intro u h; cases h)
theorem takesWrite_derefImm (a : Word) (s : State) : TakesWrite (.derefImm a) s := .inl (by intro u h; cases h)
theorem takesWrite_imm_discarded (u : Word) : TakesWrite (.imm u) mov5 := .inr rfl

theorem witness_DecodeOfEncodeIsTheInstruction :
    (Instr.out (.derefImm 0x40) (.imm 1)).wellFormed Config.tableOrder = true := by decide
theorem witness_EncodeOfDecodeIsTheWords :
    Config.tableOrder.Nodup ∧ decode Config.tableOrder [0x0A17, 3, 9] = .ok (.eq (.reg .r1) (.imm 3), [9]) :=
  ⟨by decide, rfl⟩
theorem witness_DefinedInstructionWordsAreBelow0x1000 :
    opcodeMapWellFormed Config.tableOrder = true ∧
    decode Config.tableOrder [0x0FFF, 1, 2] = .ok (.out (.derefImm 1) (.derefImm 2), []) ∧
    decode Config.tableOrder [0x1000, 1, 2] = .error (.illegalOpcode 0x1000) := ⟨by decide, rfl, rfl⟩
theorem witness_LengthIsReadOffTheInstructionWord :
    decode Config.tableOrder (0x00F7 :: [0x70, 0xBEEF, 8]) = .ok (.mov (.derefImm 0x70) (.imm 0xBEEF), [8]) := rfl
theorem witness_OperandFieldsFollowTheTable :
    (0x0, .reg .r0, .reg .r0, false) ∈ operandTable mov5 ∧ (0x7, .imm 5, .imm 5, true) ∈ operandTable mov5 ∧
    (0xE, .derefReg .pc, .mem 0x100, false) ∈ operandTable mov5 ∧ (0xF, .derefImm 5, .mem 5, true) ∈ operandTable mov5 := by
  decide

/-- A state at 0x0100 whose instruction is `MOV R0, #5`. -/
theorem witness_enabled : mov5.Enabled ∧ mov5.pc ≠ 0xFFFF#16 := ⟨.inl rfl, by decide⟩
theorem witness_StepRunsTheDecodedInstruction :
    mov5.Enabled ∧ mov5.pc ≠ 0xFFFF#16 ∧
    decode mov5.cfg.opcodeMap [mov5.readMem mov5.pc, mov5.readMem (mov5.pc + 1), mov5.readMem (mov5.pc + 2)] =
      .ok (.mov (.reg .r0) (.imm 5), [0]) := ⟨.inl rfl, by decide, rfl⟩
theorem witness_StepRefinesThePseudocode : mov5.Enabled ∧ ∃ t, step mov5 = .next t ∧ t.reg .r0 = 5 :=
  ⟨.inl rfl, _, rfl, by decide⟩
theorem witness_HaltsExactlyAtTheSentinel :
    (mov5.setPc 0xFFFF).Enabled ∧ (mov5.setPc 0xFFFF).pc = 0xFFFF#16 ∧
    step (mov5.setPc 0xFFFF) = .next ((mov5.setPc 0xFFFF).setRunState .halted) := ⟨.inl rfl, rfl, rfl⟩
theorem witness_UndefinedOpcodeRaisesBeforeOperandDecode :
    (mov5.writeMem 0x100 0x1000).Enabled ∧ (mov5.writeMem 0x100 0x1000).pc ≠ 0xFFFF#16 ∧
    0x1000 ≤ ((mov5.writeMem 0x100 0x1000).readMem (mov5.writeMem 0x100 0x1000).pc).toNat :=
  ⟨.inl rfl, by decide, by decide⟩
theorem witness_StoppedMachineTakesNoStep :
    (mov5.setRunState .halted).runState = .halted ∧
    (mov5.raise (.divideByZero 3)).runState = .faulted (.divideByZero 3) := ⟨rfl, rfl⟩

/-- A state whose instruction is the halt idiom. -/
def haltIdiom : State := start 0 0 [(0x100, 0x0D77), (0x101, 1), (0x102, 0xFFFF)]
theorem witness_HaltIdiomEndsTheRun :
    haltIdiom.Enabled ∧ haltIdiom.pc ≠ 0xFFFF#16 ∧ haltIdiom.cfg.opcodeMap = Config.tableOrder ∧
    haltIdiom.readMem haltIdiom.pc = 0x0D77#16 ∧ haltIdiom.readMem (haltIdiom.pc + 1) = 1#16 ∧
    haltIdiom.readMem (haltIdiom.pc + 2) = 0xFFFF#16 := ⟨.inl rfl, by decide, rfl, by decide, by decide, by decide⟩
theorem witness_PlacedWordRunsNext :
    State.reset.cfg.opcodeMap = Config.tableOrder ∧ decodeTableWord 16 0x0107 = some (.add (.reg .r0) (.imm 0)) := by
  decide
theorem witness_SlotMomentsFollowTheTable :
    (resolve (.derefReg .pc) (resolve (.imm 9) mov5).2).1 = .mem 0x101 ∧
    (resolve (.derefReg .pc) (resolve (.reg .r0) mov5).2).1 = .mem 0x100 ∧ (Operand.imm 9).k = 1 ∧
    (Operand.reg .r0).k = 0 := by decide
theorem witness_StoreAddressIsRegisterOrLiteral :
    (resolve (.derefReg .r1) mov5).1 = .mem 2 ∧ (resolve (.derefImm 0xFFFF) mov5).1 = .mem 0xFFFF := by decide
theorem witness_SameLocationTwice :
    (resolve (.derefReg .pc) mov5).1 = (resolve (.derefImm 0x100) (resolve (.derefReg .pc) mov5).2).1 ∧
    (resolve (.reg .r0) mov5).1 = (resolve (.reg .r0) (resolve (.reg .r0) mov5).2).1 ∧ (∀ u, Operand.reg .r0 ≠ .imm u) ∧
    value1 (.reg .r0) (.reg .r0) mov5 ≠ 0#16 ∧ value1 (.reg .r2) (.reg .r2) mov5 = 0#16 :=
  ⟨by decide, rfl, (by intro u h; cases h), by decide, by decide⟩

/-- `TakesWrite`, the one hypothesis of the statements about MOV, ADD, SUB, MUL, NOT, AND, OR, XOR, EQ, LE and LEQ: for
a register, a cell and, with `IMM_WRITE = discard`, an immediate. -/
theorem witness_MovCopiesTheSecondOperand : TakesWrite (.imm 7) mov5 ∧ value2 (.imm 7) (.reg .pc) mov5 = 0x101 :=
  ⟨takesWrite_imm_discarded 7, by decide⟩
theorem witness_AddWritesTheSumModulo65536 :
    TakesWrite (.reg .pc) mov5 ∧ value1 (.reg .pc) (.imm 2) mov5 + value2 (.reg .pc) (.imm 2) mov5 = 0x103 :=
  ⟨takesWrite_reg .pc mov5, by decide⟩
theorem witness_SubWritesTheDifferenceModulo65536 : TakesWrite (.derefReg .sp) mov5 := .inl (by intro u h; cases h)
theorem witness_MulWritesTheLowHalfOfTheProduct : TakesWrite (.reg .sb) mov5 := takesWrite_reg .sb mov5
theorem witness_NotWritesTheTruthNegation : TakesWrite (.reg .r3) mov5 := takesWrite_reg .r3 mov5
theorem witness_AndWritesTheBitwiseAnd : TakesWrite (.derefImm 9) mov5 := takesWrite_derefImm 9 mov5
theorem witness_OrWritesTheBitwiseOr : TakesWrite (.imm 9) mov5 := takesWrite_imm_discarded 9
theorem witness_XorWritesTheBitwiseExclusiveOr : TakesWrite (.derefReg .pc) mov5 := .inl (by intro u h; cases h)
theorem witness_EqWritesTheEqualityTest : TakesWrite (.reg .r1) mov5 := takesWrite_reg .r1 mov5
theorem witness_LeWritesTheStrictComparison : TakesWrite (.reg .r2) mov5 := takesWrite_reg .r2 mov5
theorem witness_LeqWritesTheComparison : TakesWrite (.reg .sp) mov5 := takesWrite_reg .sp mov5
theorem witness_DivWritesTheQuotientOrRaises :
    value2 (.reg .r0) (.reg .r1) mov5 ≠ 0#16 ∧ TakesWrite (.reg .r0) mov5 ∧ value2 (.reg .r0) (.reg .r2) mov5 = 0#16 :=
  ⟨by decide, takesWrite_reg .r0 mov5, by decide⟩
theorem witness_RemWritesTheRemainderOrRaises :
    value2 (.derefImm 7) (.reg .r1) mov5 ≠ 0#16 ∧ TakesWrite (.derefImm 7) mov5 ∧
    value2 (.derefImm 7) (.imm 0) mov5 = 0#16 := ⟨by decide, takesWrite_derefImm 7 mov5, by decide⟩
theorem witness_QuotientAndRemainderRecombine : (0xFFFF#16 : Word) ≠ 0#16 ∧ quotientWord 0xFFFF 1 = 0xFFFF := by decide
theorem witness_JnzJumpsToTheSecondOperand :
    value1 (.reg .r2) (.imm 0) mov5 = 0#16 ∧ value1 (.reg .r0) (.imm 0) mov5 ≠ 0#16 := by decide

theorem not_withheld_reset : ¬ Withheld mov5 0 := by
  rintro ⟨ch, h, _, hh⟩; cases h; cases hh
theorem witness_InWritesTheDeliveredWord :
    TakesWrite (.reg .r0) mov5 ∧ (value2 (.reg .r0) (.imm 0) mov5).toNat < mov5.nIn ∧
    ¬ Withheld mov5 (value2 (.reg .r0) (.imm 0) mov5) :=
  ⟨takesWrite_reg .r0 mov5, by decide, not_withheld_reset⟩
theorem witness_InOutOfRangeRaises : mov5.nIn ≤ (value2 (.reg .r0) (.reg .r0) mov5).toNat := by decide
theorem witness_InIsHeldWhileTheWordIsWithheld : Withheld (withholding mov5) (value2 (.reg .r0) (.imm 0) (withholding mov5)) :=
  ⟨_, rfl, rfl, rfl⟩
theorem witness_OfferLiftsTheHold :
    Withheld (withholding mov5) (value2 (.reg .r0) (.imm 0) (withholding mov5)) ∧
    TakesWrite (.reg .r0) (withholding mov5) := ⟨⟨_, rfl, rfl, rfl⟩, takesWrite_reg .r0 _⟩
theorem witness_OutSendsTheSecondOperand :
    (value1 (.imm 0) (.reg .r0) mov5).toNat < mov5.nOut ∧ mov5.nOut ≤ (value1 (.imm 1) (.reg .r0) mov5).toNat := by decide

/-- `MOV R0, R1` completes from `mov5`, so statements about a next state of `exec` speak of it. -/
theorem exec_mov_completes : ∃ t, exec (.mov (.reg .r0) (.reg .r1)) mov5 = .next t ∧ t.reg .r0 = 2 ∧ ¬ t.Faulted :=
  ⟨_, rfl, by decide, by rintro ⟨c, h⟩; cases h⟩
theorem witness_ControlIsSequentialOtherwise :
    ∃ t, exec (.mov (.reg .r0) (.reg .r1)) mov5 = .next t ∧ ¬ t.Faulted ∧
      ¬ ((Instr.mov (.reg .r0) (.reg .r1)).op = .jnz ∧ value1 (.reg .r0) (.reg .r1) mov5 ≠ 0#16) ∧
      ¬ (Writes (Instr.mov (.reg .r0) (.reg .r1)).op ∧ (Instr.mov (.reg .r0) (.reg .r1)).op1 = .reg .pc) := by
  obtain ⟨t, h, _, hf⟩ := exec_mov_completes
  exact ⟨t, h, hf, (by rintro ⟨h, _⟩; cases h), by rintro ⟨_, h⟩; cases h⟩
theorem witness_ImmediateWriteRaisesWhenConfigured :
    Writes .div ∧ (immFault mov5).cfg.immWrite = .fault ∧ value2 (.imm 6) (.imm 3) (immFault mov5) ≠ 0#16 ∧
    value2 (.imm 6) (.imm 0) (immFault mov5) = 0#16 ∧ Writes .inp ∧
    (value2 (.imm 9) (.imm 0) (immFault mov5)).toNat < (immFault mov5).nIn ∧
    ¬ Withheld (immFault mov5) (value2 (.imm 9) (.imm 0) (immFault mov5)) ∧
    mov5.cfg.immWrite = .discard ∧ ¬ mov5.Faulted ∧ ∃ t, exec (.mov (.reg .r0) (.reg .r1)) mov5 = .next t := by
  refine ⟨by simp [Writes], rfl, by decide, by decide, by simp [Writes], by decide, ?_, rfl, ?_, _, rfl⟩
  · rintro ⟨ch, h, _, hh⟩; cases h; cases hh
  · rintro ⟨c, h⟩; cases h
theorem witness_DiscardedWriteChangesNothing :
    Writes .rem ∧ mov5.cfg.immWrite = .discard ∧ Op.rem ≠ .inp ∧ value2 (.imm 6) (.imm 3) mov5 ≠ 0#16 := by
  refine ⟨by simp [Writes], rfl, by decide, by decide⟩
theorem witness_FaultIsPrecise :
    (∃ t, step (mov5.writeMem 0x100 0x0402) = .next t ∧ t.runState = .faulted (.divideByZero 0x100)) ∧
    ∃ t, step (immFault (mov5.writeMem 0x100 0x0E72)) = .next t ∧ t.runState = .faulted (.immediateWrite 0x100) :=
  ⟨⟨_, rfl, rfl⟩, _, rfl, rfl⟩
theorem witness_RaisesExactlyUnderTheListedConditions :
    ¬ mov5.Faulted ∧ (∃ t, exec (.div (.reg .r0) (.reg .r2)) mov5 = .next t) ∧
    FaultsWith (.div (.reg .r0) (.reg .r2)) mov5 (.divideByZero 0x100) :=
  ⟨(by rintro ⟨c, h⟩; cases h), ⟨_, rfl⟩, .inl ⟨.inl rfl, by decide, by decide⟩⟩

/-- A state whose instruction, `MOV [#0x103], #0x0AAA`, stores at the next instruction's address. -/
def selfModifying : State := start 0 0 [(0x100, 0x00F7), (0x101, 0x103), (0x102, 0x0AAA)]
/-- A state whose instruction, `IN [#0x102], R2`, does so with the word 0x0AAA that its channel offers. -/
def selfModifyingIn : State := offering (start 0 0 [(0x100, 0x0EF2), (0x101, 0x102), (0x102, 0)]) [0x0AAA]
theorem witness_StoredWordIsFetchedNext :
    (selfModifying.Enabled ∧ selfModifying.pc ≠ 0xFFFF#16 ∧
      decode selfModifying.cfg.opcodeMap selfModifying.fetchWords = .ok (.mov (.derefImm 0x103) (.imm 0x0AAA), []) ∧
      ∃ t, step selfModifying = .next t ∧ ¬ t.Faulted ∧ Writes .mov ∧
        (resolve (.derefImm 0x103) selfModifying).1 = .mem t.pc) ∧
    selfModifyingIn.Enabled ∧ selfModifyingIn.pc ≠ 0xFFFF#16 ∧
    decode selfModifyingIn.cfg.opcodeMap selfModifyingIn.fetchWords = .ok (.inp (.derefImm 0x102) (.reg .r2), [0]) ∧
    ∃ t, step selfModifyingIn = .next t ∧ ¬ t.Faulted ∧ Writes .inp ∧
      (resolve (.derefImm 0x102) selfModifyingIn).1 = .mem t.pc ∧ t.fetchWords.head? = some 0x0AAA :=
  ⟨⟨.inl rfl, by decide, rfl, _, rfl, (by rintro ⟨c, h⟩; cases h), by simp [Writes], by decide⟩,
    .inl rfl, by decide, rfl, _, rfl, (by rintro ⟨c, h⟩; cases h), by simp [Writes], by decide, by decide⟩
theorem witness_LoadPlacesTheImage :
    [0x0007#16, 5#16].length ≤ 65536 ∧ [0x0007#16, 5#16][1]? = some 5#16 ∧ [0x0007#16, 5#16].length ≤ (2#16 : Word).toNat ∧
    (List.replicate 65536 0#16).length ≤ 65536 := by
  refine ⟨by decide, by decide, by decide, ?_⟩
  rw [List.length_replicate]
theorem witness_LoadRefusesALongImage : 65536 < (List.replicate 65537 0#16).length := by
  rw [List.length_replicate]; decide
theorem witness_LoadForgetsTheRun :
    [5#16].length ≤ 65536 ∧ (mov5.setRunState .halted).mem = mov5.mem ∧ (mov5.setRunState .halted).cfg = mov5.cfg ∧
    { (mov5.setRunState .halted).env with trace := [] } = { mov5.env with trace := [] } := ⟨by decide, rfl, rfl, rfl⟩

theorem mov5_inv : mov5.Inv := ⟨by decide, fun h => (by cases h), fun e h => (by cases h)⟩
theorem witness_StepKeepsTheInvariant : mov5.Inv ∧ ∃ t, step mov5 = .next t ∧ t.reg .r0 = 5 := ⟨mov5_inv, _, rfl, by decide⟩
theorem witness_EnvironmentKeepsTheInvariant : mov5.Inv := mov5_inv
theorem witness_StepKeepsConfigurationAndChannels : ∃ t, step (offering mov5 [3]) = .next t := ⟨_, rfl⟩
theorem witness_OnlyTheFirstOperandIsWritten :
    ∃ t, exec (.mov (.reg .r0) (.reg .r1)) mov5 = .next t ∧ t.reg .r0 ≠ mov5.reg .r0 := ⟨_, rfl, by decide⟩
theorem witness_OnlyInAndOutReachOutside :
    ∃ t, exec (.out (.imm 0) (.reg .r1)) mov5 = .next t ∧ t.env.trace = [.output 0 2] := ⟨_, rfl, by decide⟩
theorem witness_EnvironmentIsInvisibleToTheOthers :
    (Instr.mov (.reg .r0) (.reg .r1)).op ≠ .inp ∧ (Instr.mov (.reg .r0) (.reg .r1)).op ≠ .out ∧
    ∃ t, exec (.mov (.reg .r0) (.reg .r1)) mov5 = .next t := ⟨by decide, by decide, _, rfl⟩
theorem witness_RunsExtendTheTrace : ∃ t, Reaches mov5 t ∧ t.pc = 0x102 := ⟨_, .step (.refl _) rfl, by decide⟩
theorem witness_RunsKeepTheInvariantAndEnd :
    mov5.Inv ∧ (∃ t, Reaches mov5 t ∧ t.pc = 0x102) ∧ (mov5.setRunState .halted).EndedWell ∧
    (mov5.raise (.divideByZero 0)).Faulted := ⟨mov5_inv, witness_RunsExtendTheTrace, rfl, _, rfl⟩

end Sys2Proof.Tests
end

section
/-! SUPPORT. The proofs of the statements about the instruction word and the operand fields (spec/30_encoding.md rules
R52 and R56). -/

namespace Sys2Proof

open Sys2Proof.Machine Sys2Proof.Claims

/-! ### Defined instruction words (rules R56 and R57) -/

/-- A full opcode map numbers an operation for exactly the opcodes below 16 (rules R55 to R57). -/
theorem decodeOp_eq_none_iff {m : List Op} (hm : opcodeMapWellFormed m = true) (opc : BitVec 8) :
    decodeOp m opc = none ↔ 16 ≤ opc.toNat := by
  have hlen : m.length = 16 := by
    simp only [opcodeMapWellFormed, Bool.and_eq_true, beq_iff_eq] at hm
    exact hm.1
  unfold decodeOp
  split
  next hgt =>
    have : 15 < opc.toNat := BitVec.lt_def.1 hgt
    simp only [true_iff]
    omega
  next => rw [List.getElem?_eq_none_iff, hlen]

/-- Under a full opcode map no operation is selected by exactly the words from 0x1000 up. -/
theorem decodeOp_opcodeField_eq_none_iff {m : List Op} (hm : opcodeMapWellFormed m = true) (w : Word) :
    decodeOp m (opcodeField w) = none ↔ 0x1000 ≤ w.toNat := by
  rw [decodeOp_eq_none_iff hm, (field_values w).1]
  omega

/-- Settles O3: three words decode exactly when an operation is selected, and the map has one for each opcode below
16. -/
theorem definedInstructionWordsAreBelow0x1000 : Obligations.DefinedInstructionWordsAreBelow0x1000 := by
  intro m w a b hm
  have hnone := decodeOp_opcodeField_eq_none_iff hm w
  rcases decode_three_words m w a b with ⟨hop, hdec⟩ | ⟨i, rest, hop, hdec⟩
  · have hge : 0x1000 ≤ w.toNat := hnone.1 hop
    simp [hdec, hge]
  · have hlt : w.toNat < 0x1000 := by simpa [hop] using hnone
    have hmap : m[w.toNat / 256]? = some i.op := (field_values w).1 ▸ (decodeOp_inv hop).2
    simp [hdec, hlt, hmap]

/-! ### The operand table (rule R52) -/

/-- The sixteen operands in the order of their fields, `v` the word that the two immediate forms consume. -/
def fieldOperands (v : Word) : List Operand :=
  let regs : List Reg := [.r0, .r1, .r2, .r3, .sb, .sp, .pc]
  regs.map .reg ++ [.imm v] ++ regs.map .derefReg ++ [.derefImm v]

/-- The row of rule R52's table that the encoder and `resolve` give for an operand. -/
def operandRow (s : State) (o : Operand) : Nat × Operand × Slot × Bool :=
  (o.field, o, (resolve o s).1, o.k == 1)

/-- Rule R52's table, row by row, is what the encoder and `resolve` say of the sixteen operands. -/
theorem operandTable_eq_map (s : State) :
    operandTable s = (fieldOperands (s.readMem (s.pc + 1))).map (operandRow s) := rfl

/-- An operand of the table consumes the word at hand or none. -/
theorem immediates_of_mem_fieldOperands {v : Word} {o : Operand} (h : o ∈ fieldOperands v) :
    o.immediates = if o.k == 1 then [v] else [] := by
  simp only [fieldOperands, List.mem_append, List.mem_map, List.mem_singleton] at h
  rcases h with ((⟨r, _, rfl⟩ | rfl) | ⟨r, _, rfl⟩) | rfl <;> rfl

/-- `pc` after an operand: advanced by one exactly when the operand has an immediate (rule R74). -/
theorem resolve_state_eq_ite (o : Operand) (s : State) :
    (resolve o s).2 = if o.k == 1 then s.setPc (s.pc + 1) else s := by
  cases o <;> rfl

/-- Settles O5: a row of the table is an operand's field, slot and length, and a field with the operand's immediates
decodes back to the operand. -/
theorem operandFieldsFollowTheTable : Obligations.OperandFieldsFollowTheTable := by
  intro s rest f o slot consumed h
  rw [operandTable_eq_map] at h
  obtain ⟨o, ho, row⟩ := List.mem_map.1 h
  cases row
  refine ⟨?_, rfl, Prod.ext rfl (resolve_state_eq_ite o s)⟩
  have words : s.readMem (s.pc + 1) :: rest =
      o.immediates ++ if o.k == 1 then rest else s.readMem (s.pc + 1) :: rest := by
    rw [immediates_of_mem_fieldOperands ho]
    split <;> rfl
  calc decodeOperandField (BitVec.ofNat 4 o.field) (s.readMem (s.pc + 1) :: rest)
    _ = decodeOperandField (BitVec.ofNat 4 o.field)
          (o.immediates ++ if o.k == 1 then rest else s.readMem (s.pc + 1) :: rest) := congrArg _ words
    _ = _ := decodeOperandField_field o _

end Sys2Proof
end

section
/-! SUPPORT. The execute phase in the words of `Sys2Proof.Claims`: what the slots hold, and the state that storing a
result leaves (spec/40_step_and_operands.md rules R72 to R79). -/

namespace Sys2Proof

open Sys2Proof.Machine Sys2Proof.Claims

/-! ### Reading a cell after a write, and a slot -/

/-- `MemRead` after `MemWrite` (rules R34 and R38). -/
@[simp] theorem Machine.State.writeMem_readMem (s : State) (a b v : Word) :
    (s.writeMem a v).readMem b = if b = a then v else s.readMem b := by
  simp only [State.readMem, State.writeMem_mem, Memory.lookup_store, BitVec.toNat_inj]
  by_cases h : b = a <;> simp [h]

@[simp] theorem Machine.State.readSlot_reg (s : State) (r : Reg) : s.readSlot (.reg r) = s.reg r := rfl
@[simp] theorem Machine.State.readSlot_imm (s : State) (v : Word) : s.readSlot (.imm v) = v := rfl
@[simp] theorem Machine.State.readSlot_mem (s : State) (a : Word) : s.readSlot (.mem a) = s.readMem a := rfl

/-! ### The slots of the two operands (rules R74 to R76) -/

theorem resolve_eq_reg {o : Operand} {s : State} {r : Reg} (h : (resolve o s).1 = .reg r) : o = .reg r := by
  cases o <;> cases h; rfl

theorem resolve_eq_imm {o : Operand} {s : State} {u : Word} (h : (resolve o s).1 = .imm u) : o = .imm u := by
  cases o <;> cases h; rfl

/-- An operand that addresses a cell names no register. -/
theorem ne_reg_of_resolve_eq_mem {o : Operand} {s : State} {a : Word} (h : (resolve o s).1 = .mem a) (r : Reg) :
    o ≠ .reg r := by
  rintro rfl
  cases h

/-- Operand 1's slot, read in the execute phase, holds operand 1's value. -/
theorem readSlot_resolve_fst (o1 o2 : Operand) (s : State) :
    (s.setPc (executePc o1 o2 s)).readSlot (resolve o1 s).1 = value1 o1 o2 s := by
  cases o1 with
  | reg r => cases r <;> rfl
  | imm v => rfl
  | derefReg r => rfl
  | derefImm a => rfl

/-- Operand 2's slot, decoded after operand 1 and read in the execute phase, holds operand 2's value. -/
theorem readSlot_resolve_snd (o1 o2 : Operand) (s : State) :
    (s.setPc (executePc o1 o2 s)).readSlot (resolve o2 (s.setPc (s.pc + BitVec.ofNat 16 o1.k))).1 =
      value2 o1 o2 s := by
  cases o2 with
  | reg r => cases r <;> rfl
  | imm v => rfl
  | derefReg r => cases r <;> simp [resolve, value2]
  | derefImm a => rfl

/-! ### Storing a result -/

/-- The end of an instruction with the result `v`: write-back to operand 1 in the execute phase, then the loop
increment (rules R77 and R79). -/
def storeResult (o1 o2 : Operand) (v : Word) (s : State) : Result :=
  writeBack s.pc (resolve o1 s).1 v (s.setPc (executePc o1 o2 s))

/-- An arm that combines the two values stores the combination of the operands' values. -/
theorem withSlots_combine (f : Word → Word → Word) (o1 o2 : Operand) (s : State) :
    withSlots o1 o2 s (combine f s.pc) = storeResult o1 o2 (f (value1 o1 o2 s) (value2 o1 o2 s)) s := by
  rw [withSlots_eq, ← readSlot_resolve_fst, ← readSlot_resolve_snd]
  rfl

/-- The shared form of DIV and REM: a zero divisor raises, any other goes on to the store (rules R94 and R95). -/
theorem withSlots_divideArm (f : Word → Word → Word) (o1 o2 : Operand) (s : State) :
    withSlots o1 o2 s (divideArm f s.pc) =
      if value2 o1 o2 s = 0#16 then .next (raisedInExecute o1 o2 s (.divideByZero s.pc))
      else storeResult o1 o2 (f (value1 o1 o2 s) (value2 o1 o2 s)) s := by
  rw [← withSlots_combine, withSlots_eq, withSlots_eq, ← readSlot_resolve_snd]
  rcases divideArm_cases f s.pc (resolve o1 s).1 (resolve o2 (s.setPc (s.pc + BitVec.ofNat 16 o1.k))).1
    (s.setPc (executePc o1 o2 s)) with ⟨hzero, harm⟩ | ⟨hnonzero, harm⟩
  · rw [if_pos hzero]
    exact harm
  · rw [if_neg hnonzero]
    exact harm

/-- A store into a register: the other registers are kept, and `pc` is one past the result when it is the
destination. -/
theorem written_setReg (r : Reg) (o2 : Operand) (v : Word) (s : State) :
    let x := (s.setPc (executePc (.reg r) o2 s)).setReg r v
    Written (.reg r) o2 v s (x.setPc (x.pc + 1)) where
  registers q hq := by simp [hq, eq_comm]
  counter := by simp [eq_comm]
  stored _ h := by cases h
  kept _ _ := rfl
  runState := rfl
  cfg := rfl
  env := rfl

/-- A store into the cell that operand 1 addresses. -/
theorem written_writeMem {o1 : Operand} {s : State} {a : Word} (ha : (resolve o1 s).1 = .mem a) (o2 : Operand)
    (v : Word) :
    Written o1 o2 v s (((s.setPc (executePc o1 o2 s)).writeMem a v).setPc (executePc o1 o2 s + 1)) where
  registers q hq := by simp [hq, ne_reg_of_resolve_eq_mem ha]
  counter := by simp [ne_reg_of_resolve_eq_mem ha]
  stored b hb := by
    obtain rfl : a = b := Slot.mem.inj (ha.symm.trans hb)
    exact ⟨by simp, fun c hc => by simp [hc]⟩
  kept h := absurd ha (h a)
  runState := rfl
  cfg := rfl
  env := rfl

/-- A discarded store into an immediate (rule R77). -/
theorem written_discarded (u : Word) (o2 : Operand) (v : Word) (s : State) :
    Written (.imm u) o2 v s (s.setPc (executePc (.imm u) o2 s + 1)) where
  registers q hq := by simp [hq]
  counter := by simp
  stored _ h := by cases h
  kept _ _ := rfl
  runState := rfl
  cfg := rfl
  env := rfl

/-- A result is stored into every operand that takes a write, and nothing else is changed (rules R77 and R79). -/
theorem storeResult_written {o1 : Operand} {s : State} (h : TakesWrite o1 s) (o2 : Operand) (v : Word) :
    ∃ t, storeResult o1 o2 v s = .next t ∧ Written o1 o2 v s t := by
  rcases writeBack_cases s.pc (resolve o1 s).1 v (s.setPc (executePc o1 o2 s)) with
    ⟨r, hd, hw⟩ | ⟨a, hd, hw⟩ | ⟨u, hd, -, hw⟩ | ⟨u, hd, hfault, -⟩
  · cases resolve_eq_reg hd
    exact ⟨_, hw, written_setReg r o2 v s⟩
  · rw [State.setPc_pc] at hw
    exact ⟨_, hw, written_writeMem hd o2 v⟩
  · cases resolve_eq_imm hd
    rw [State.setPc_pc, State.setPc_setPc] at hw
    exact ⟨_, hw, written_discarded u o2 v s⟩
  · cases resolve_eq_imm hd
    rcases h with hne | hdiscard
    · exact absurd rfl (hne u)
    · cases hdiscard.symm.trans hfault

/-! ### The encoding of an operation -/

/-- Every operation is encoded under its place in the spec's table (rules R50, R53 and R55). -/
theorem encodedAs_instr (op : Op) : EncodedAs (Config.tableOrder.idxOf op) op.instr := by
  intro o1 o2
  simp [encode, instrWord, Config.standard, Instr.op1, Instr.op2]

end Sys2Proof
end

section
/-! SUPPORT. The proofs of the statements about MOV, ADD, SUB, MUL, DIV and REM (spec/41_move_arith.md). -/

namespace Sys2Proof

open Sys2Proof.Machine Sys2Proof.Claims

/-! ### The exact results reduced modulo 2^16 are the operations on words (spec/00_scope.md rule R5) -/

theorem sumWord_eq_add (a b : Word) : sumWord a b = a + b := by
  simp [sumWord, BitVec.ofNat_add]

theorem differenceWord_eq_sub (a b : Word) : differenceWord a b = a - b := by
  have := b.isLt
  rw [differenceWord, ← BitVec.toNat_inj, BitVec.toNat_ofInt, BitVec.toNat_sub]
  omega

theorem productWord_eq_mul (a b : Word) : productWord a b = a * b := by
  simp [productWord, BitVec.ofNat_mul]

theorem quotientWord_eq_div (a b : Word) : quotientWord a b = a / b := BitVec.udiv_def.symm

theorem remainderWord_eq_mod (a b : Word) : remainderWord a b = a % b := BitVec.umod_def.symm

/-! ### What each instruction does (rules R90 to R95) -/

section
variable (o1 o2 : Operand) (s : State)

theorem exec_mov : exec (.mov o1 o2) s = storeResult o1 o2 (value2 o1 o2 s) s :=
  withSlots_combine (fun _ y => y) o1 o2 s

theorem exec_add : exec (.add o1 o2) s = storeResult o1 o2 (value1 o1 o2 s + value2 o1 o2 s) s := by
  rw [← sumWord_eq_add]
  exact withSlots_combine sumWord o1 o2 s

theorem exec_sub : exec (.sub o1 o2) s = storeResult o1 o2 (value1 o1 o2 s - value2 o1 o2 s) s := by
  rw [← differenceWord_eq_sub]
  exact withSlots_combine differenceWord o1 o2 s

theorem exec_mul : exec (.mul o1 o2) s = storeResult o1 o2 (value1 o1 o2 s * value2 o1 o2 s) s := by
  rw [← productWord_eq_mul]
  exact withSlots_combine productWord o1 o2 s

theorem exec_div : exec (.div o1 o2) s =
    if value2 o1 o2 s = 0#16 then .next (raisedInExecute o1 o2 s (.divideByZero s.pc))
    else storeResult o1 o2 (value1 o1 o2 s / value2 o1 o2 s) s := by
  rw [← quotientWord_eq_div]
  exact withSlots_divideArm quotientWord o1 o2 s

theorem exec_rem : exec (.rem o1 o2) s =
    if value2 o1 o2 s = 0#16 then .next (raisedInExecute o1 o2 s (.divideByZero s.pc))
    else storeResult o1 o2 (value1 o1 o2 s % value2 o1 o2 s) s := by
  rw [← remainderWord_eq_mod]
  exact withSlots_divideArm remainderWord o1 o2 s

end

/-! ### The statements -/

/-- Settles O18: MOV stores the second operand's value. -/
theorem movCopiesTheSecondOperand : Obligations.MovCopiesTheSecondOperand := by
  refine ⟨encodedAs_instr .mov, fun o1 o2 s htakes => ?_⟩
  rw [exec_mov]
  exact storeResult_written htakes o2 _

/-- Settles O19: ADD stores the sum of the operands' values. -/
theorem addWritesTheSumModulo65536 : Obligations.AddWritesTheSumModulo65536 := by
  refine ⟨encodedAs_instr .add, fun o1 o2 s htakes => ?_⟩
  rw [exec_add]
  exact storeResult_written htakes o2 _

/-- Settles O20: SUB stores the first value minus the second. -/
theorem subWritesTheDifferenceModulo65536 : Obligations.SubWritesTheDifferenceModulo65536 := by
  refine ⟨encodedAs_instr .sub, fun o1 o2 s htakes => ?_⟩
  rw [exec_sub]
  exact storeResult_written htakes o2 _

/-- Settles O21: MUL stores the product of the operands' values. -/
theorem mulWritesTheLowHalfOfTheProduct : Obligations.MulWritesTheLowHalfOfTheProduct := by
  refine ⟨encodedAs_instr .mul, fun o1 o2 s htakes => ?_⟩
  rw [exec_mul]
  exact storeResult_written htakes o2 _

/-- Settles O22: DIV branches on the divisor, to the store of the quotient or to the raise. -/
theorem divWritesTheQuotientOrRaises : Obligations.DivWritesTheQuotientOrRaises := by
  refine ⟨encodedAs_instr .div, fun o1 o2 s => ⟨fun hnonzero htakes => ?_, fun hzero => ?_⟩⟩
  · rw [exec_div, if_neg hnonzero]
    exact storeResult_written htakes o2 _
  · rw [exec_div, if_pos hzero]

/-- Settles O23: REM branches on the divisor, to the store of the remainder or to the raise. -/
theorem remWritesTheRemainderOrRaises : Obligations.RemWritesTheRemainderOrRaises := by
  refine ⟨encodedAs_instr .rem, fun o1 o2 s => ⟨fun hnonzero htakes => ?_, fun hzero => ?_⟩⟩
  · rw [exec_rem, if_neg hnonzero]
    exact storeResult_written htakes o2 _
  · rw [exec_rem, if_pos hzero]

end Sys2Proof
end

section
/-! SUPPORT. The proofs of the statements about NOT, AND, OR, XOR, EQ, LE and LEQ (spec/42_logic_compare.md). -/

namespace Sys2Proof

open Sys2Proof.Machine Sys2Proof.Claims

/-! ### The word of a truth value is the 1 or 0 that the statements choose (spec/00_scope.md rule R5) -/

theorem b2w_eq_ite {c : Bool} {p : Prop} [Decidable p] (h : c = true ↔ p) : b2w c = if p then 1#16 else 0#16 :=
  if_congr h rfl rfl

theorem truthNot_eq_ite (b : Word) : truthNot b = if b = 0#16 then 1#16 else 0#16 :=
  b2w_eq_ite (beq_iff_eq.trans (@BitVec.toNat_inj 16 b 0#16))

theorem truthEq_eq_ite (a b : Word) : truthEq a b = if a = b then 1#16 else 0#16 :=
  b2w_eq_ite (beq_iff_eq.trans BitVec.toNat_inj)

theorem truthLe_eq_ite (a b : Word) : truthLe a b = if a.toNat < b.toNat then 1#16 else 0#16 :=
  b2w_eq_ite decide_eq_true_iff

theorem truthLeq_eq_ite (a b : Word) : truthLeq a b = if a.toNat ≤ b.toNat then 1#16 else 0#16 :=
  b2w_eq_ite decide_eq_true_iff

/-! ### What each instruction does (rules R100 to R106) -/

section
variable (o1 o2 : Operand) (s : State)

theorem exec_not : exec (.not o1 o2) s =
    storeResult o1 o2 (if value2 o1 o2 s = 0#16 then 1#16 else 0#16) s := by
  rw [← truthNot_eq_ite]
  exact withSlots_combine (fun _ y => truthNot y) o1 o2 s

theorem exec_and : exec (.and o1 o2) s = storeResult o1 o2 (value1 o1 o2 s &&& value2 o1 o2 s) s :=
  withSlots_combine (· &&& ·) o1 o2 s

theorem exec_or : exec (.or o1 o2) s = storeResult o1 o2 (value1 o1 o2 s ||| value2 o1 o2 s) s :=
  withSlots_combine (· ||| ·) o1 o2 s

theorem exec_xor : exec (.xor o1 o2) s = storeResult o1 o2 (value1 o1 o2 s ^^^ value2 o1 o2 s) s :=
  withSlots_combine (· ^^^ ·) o1 o2 s

theorem exec_eq : exec (.eq o1 o2) s =
    storeResult o1 o2 (if value1 o1 o2 s = value2 o1 o2 s then 1#16 else 0#16) s := by
  rw [← truthEq_eq_ite]
  exact withSlots_combine truthEq o1 o2 s

theorem exec_le : exec (.le o1 o2) s =
    storeResult o1 o2 (if (value1 o1 o2 s).toNat < (value2 o1 o2 s).toNat then 1#16 else 0#16) s := by
  rw [← truthLe_eq_ite]
  exact withSlots_combine truthLe o1 o2 s

theorem exec_leq : exec (.leq o1 o2) s =
    storeResult o1 o2 (if (value1 o1 o2 s).toNat ≤ (value2 o1 o2 s).toNat then 1#16 else 0#16) s := by
  rw [← truthLeq_eq_ite]
  exact withSlots_combine truthLeq o1 o2 s

end

/-- An instruction that ends in a store completes, and writes its result, when operand 1 takes a write. -/
theorem exec_written {i : Instr} {o1 o2 : Operand} {v : Word} {s : State} (hexec : exec i s = storeResult o1 o2 v s)
    (htakes : TakesWrite o1 s) : ∃ t, exec i s = .next t ∧ Written o1 o2 v s t := by
  rw [hexec]
  exact storeResult_written htakes o2 v

/-! ### The statements -/

/-- Settles O25: NOT stores 1 exactly for a zero second operand. -/
theorem notWritesTheTruthNegation : Obligations.NotWritesTheTruthNegation :=
  ⟨encodedAs_instr .not, fun o1 o2 s htakes => exec_written (exec_not o1 o2 s) htakes⟩

/-- Settles O26: AND stores the word operation's result, whose bits are the ANDs of the values' bits. -/
theorem andWritesTheBitwiseAnd : Obligations.AndWritesTheBitwiseAnd := by
  refine ⟨encodedAs_instr .and, fun o1 o2 s htakes => ?_⟩
  obtain ⟨t, hnext, hwritten⟩ := exec_written (exec_and o1 o2 s) htakes
  exact ⟨t, _, hnext, hwritten, fun _ => BitVec.getLsbD_and⟩

/-- Settles O27: OR stores the word operation's result, whose bits are the ORs of the values' bits. -/
theorem orWritesTheBitwiseOr : Obligations.OrWritesTheBitwiseOr := by
  refine ⟨encodedAs_instr .or, fun o1 o2 s htakes => ?_⟩
  obtain ⟨t, hnext, hwritten⟩ := exec_written (exec_or o1 o2 s) htakes
  exact ⟨t, _, hnext, hwritten, fun _ => BitVec.getLsbD_or⟩

/-- Settles O28: XOR stores the word operation's result, whose bits are the exclusive ORs of the values' bits. -/
theorem xorWritesTheBitwiseExclusiveOr : Obligations.XorWritesTheBitwiseExclusiveOr := by
  refine ⟨encodedAs_instr .xor, fun o1 o2 s htakes => ?_⟩
  obtain ⟨t, hnext, hwritten⟩ := exec_written (exec_xor o1 o2 s) htakes
  exact ⟨t, _, hnext, hwritten, fun _ => BitVec.getLsbD_xor⟩

/-- Settles O29: EQ stores 1 exactly for equal values. -/
theorem eqWritesTheEqualityTest : Obligations.EqWritesTheEqualityTest :=
  ⟨encodedAs_instr .eq, fun o1 o2 s htakes => exec_written (exec_eq o1 o2 s) htakes⟩

/-- Settles O30: LE stores 1 exactly when the first value is below the second. -/
theorem leWritesTheStrictComparison : Obligations.LeWritesTheStrictComparison :=
  ⟨encodedAs_instr .le, fun o1 o2 s htakes => exec_written (exec_le o1 o2 s) htakes⟩

/-- Settles O31: LEQ stores 1 exactly when the first value is at most the second. -/
theorem leqWritesTheComparison : Obligations.LeqWritesTheComparison :=
  ⟨encodedAs_instr .leq, fun o1 o2 s htakes => exec_written (exec_leq o1 o2 s) htakes⟩

end Sys2Proof
end

section
/-! SUPPORT. The proof of the statement about JNZ (spec/43_control_io.md rule R110). -/

namespace Sys2Proof

open Sys2Proof.Machine Sys2Proof.Claims

/-- A state that differs in `pc` alone. -/
theorem onlyPcMoved_setPc (s : State) (v : Word) : OnlyPcMoved s (s.setPc v) where
  registers q hq := by simp [hq]
  memory _ := rfl
  runState := rfl
  cfg := rfl
  env := rfl

/-- The two ways of JNZ, after the loop increment: a taken jump's `t - 1` has become `t` (rules R79 and R110). -/
theorem armJnz_eq_next_setPc (a : Word) (d x : Slot) (s : State) :
    armJnz a d x s = .next (s.setPc (if s.readSlot d = 0#16 then s.pc + 1 else s.readSlot x)) := by
  by_cases hzero : s.readSlot d = 0#16
  · simp [armJnz, loopIncrement, hzero]
  · simp [armJnz, loopIncrement, hzero]

/-- JNZ in the operands' values (rule R110). -/
theorem exec_jnz (o1 o2 : Operand) (s : State) : exec (.jnz o1 o2) s =
    .next (s.setPc (if value1 o1 o2 s = 0#16 then executePc o1 o2 s + 1 else value2 o1 o2 s)) := by
  calc exec (.jnz o1 o2) s
    _ = armJnz s.pc (resolve o1 s).1 (resolve o2 (s.setPc (s.pc + BitVec.ofNat 16 o1.k))).1
          (s.setPc (executePc o1 o2 s)) := withSlots_eq o1 o2 s (armJnz s.pc)
    _ = _ := by
      rw [armJnz_eq_next_setPc, readSlot_resolve_fst, readSlot_resolve_snd, State.setPc_pc, State.setPc_setPc]

/-- Settles O32: JNZ completes from every state and moves `pc` alone. -/
theorem jnzJumpsToTheSecondOperand : Obligations.JnzJumpsToTheSecondOperand :=
  ⟨encodedAs_instr .jnz, fun o1 o2 s => ⟨_, exec_jnz o1 o2 s, onlyPcMoved_setPc s _, State.setPc_pc s _⟩⟩

end Sys2Proof
end

section
/-! SUPPORT. The proofs of the statements about the causes `IllegalOpcode` and `InputChannelRange`
(spec/60_exceptions.md rules R121 and R123). -/

namespace Sys2Proof

open Sys2Proof.Machine Sys2Proof.Claims

/-! ### An undefined opcode (rule R121) -/

/-- No map selects an operation for a word from 0x1000 up, however many operations it lists (rules R55 to R57). -/
theorem decodeOp_opcodeField_eq_none_of_le (m : List Op) {w : Word} (hw : 0x1000 ≤ w.toNat) :
    decodeOp m (opcodeField w) = none := by
  refine Option.eq_none_iff_forall_ne_some.2 fun op hop => ?_
  have hlt : (opcodeField w).toNat < 16 := (decodeOp_inv hop).1
  rw [(field_values w).1] at hlt
  omega

/-- The fetch of a word from 0x1000 up gives no instruction. -/
theorem fetch_eq_error_of_le {s : State} (hw : 0x1000 ≤ (s.readMem s.pc).toNat) :
    s.fetch = .error (.illegalOpcode (s.readMem s.pc)) := by
  simp [State.fetch, State.fetchWords, decode, decodeOp_opcodeField_eq_none_of_le s.cfg.opcodeMap hw]

/-- Settles O10: past the halt check the fetch gives no instruction, and an iteration without one raises in place. -/
theorem undefinedOpcodeRaisesBeforeOperandDecode : Obligations.UndefinedOpcodeRaisesBeforeOperandDecode := by
  intro s henabled hpc hword
  have hfetch : (s.setRunState .running).fetch = .error (.illegalOpcode (s.readMem s.pc)) := fetch_eq_error_of_le hword
  have hrun : step s = runInstruction s := (step_eq_haltOrRun henabled).trans (if_neg hpc)
  rw [hrun]
  rcases runInstruction_cases s with ⟨i, hok, -⟩ | ⟨e, -, hraise⟩
  · cases hok.symm.trans hfetch
  · exact hraise

/-! ### An input channel that is not connected (rule R123) -/

/-- IN uses its second slot for the channel's index alone. -/
theorem armIn_eq_armIn_imm (a : Word) (d x : Slot) (s : State) : armIn a d x s = armIn a d (.imm (s.readSlot x)) s :=
  rfl

/-- IN in the value of its second operand, the channel's index (rule R111). -/
theorem exec_inp (o1 o2 : Operand) (s : State) : exec (.inp o1 o2) s =
    armIn s.pc (resolve o1 s).1 (.imm (value2 o1 o2 s)) (s.setPc (executePc o1 o2 s)) := by
  calc exec (.inp o1 o2) s
    _ = armIn s.pc (resolve o1 s).1 (resolve o2 (s.setPc (s.pc + BitVec.ofNat 16 o1.k))).1
          (s.setPc (executePc o1 o2 s)) := withSlots_eq o1 o2 s (armIn s.pc)
    _ = _ := by rw [armIn_eq_armIn_imm, readSlot_resolve_snd]

/-- The range check of IN comes before the invocation and before operand 1 is used (rule R111). -/
theorem armIn_eq_raise_of_nIn_le {i : Word} {s : State} (hrange : s.nIn ≤ i.toNat) (a : Word) (d : Slot) :
    armIn a d (.imm i) s = .next (s.raise (.inputChannelRange i)) :=
  if_pos hrange

/-- Settles O34: the range check fails in the execute phase, where `pc` is `A + k` and nothing else has changed. -/
theorem inOutOfRangeRaises : Obligations.InOutOfRangeRaises := by
  intro o1 o2 s hrange
  rw [exec_inp]
  exact armIn_eq_raise_of_nIn_le ((State.setPc_nIn s _).trans_le hrange) s.pc (resolve o1 s).1

end Sys2Proof
end

section
/-! SUPPORT. The proof of the statement about a load that does not fit (spec/70_reset_and_hazards.md rule R141). -/

namespace Sys2Proof

open Sys2Proof.Machine Sys2Proof.Claims

/-- An image longer than memory is refused with nothing copied (rule R141). -/
theorem load_eq_raise_of_memWords_lt {image : List Word} (hlong : memWords < image.length) (s : State) :
    s.load image = s.raise (.loadCapacity image.length) := by
  rcases s.load_cases image with ⟨-, hraise⟩ | ⟨hfits, -⟩
  · exact hraise
  · exact absurd hlong hfits.not_gt

/-- A raised fault leaves a state that no step can be taken from (rule R16). -/
theorem step_raise_ne_next (s : State) (c : FaultCause) (t : State) : step (s.raise c) ≠ .next t := by
  intro hnext
  rcases step_enabled hnext with hready | hrunning
  · cases hready
  · cases hrunning

/-- Settles O47: the load raises the fault in place, and a step is taken in an enabled state only. -/
theorem loadRefusesALongImage : Obligations.LoadRefusesALongImage := by
  intro s image hlong
  rw [load_eq_raise_of_memWords_lt hlong s]
  exact ⟨rfl, rfl, step_raise_ne_next s (.loadCapacity image.length)⟩

end Sys2Proof
end

section
/-! SUPPORT. The proofs of the statements about decoding and encoding whole instructions (spec/30_encoding.md rules R50
to R57). -/

namespace Sys2Proof

open Sys2Proof.Machine Sys2Proof.Claims

/-! ### The opcode map numbers exactly the operations with an encoding (rule R55) -/

/-- An instruction has an encoding under a map when its operation's place in the map is an opcode below 16. -/
theorem wellFormed_iff_idxOf_lt {m : List Op} {i : Instr} :
    i.wellFormed m = true ↔ m.idxOf i.op < 16 ∧ i.op ∈ m := by
  rw [Instr.wellFormed, List.contains_iff_mem]
  constructor
  · intro htake
    have hmem : i.op ∈ m := List.mem_of_mem_take htake
    have hidx : m.idxOf i.op = (m.take 16).idxOf i.op := by
      conv_lhs => rw [← List.take_append_drop 16 m]
      exact List.idxOf_append_of_mem htake
    have hlt := List.idxOf_lt_length_of_mem htake
    rw [List.length_take] at hlt
    exact ⟨by omega, hmem⟩
  · rintro ⟨hlt, hmem⟩
    have hlen := List.idxOf_lt_length_of_mem hmem
    exact List.mem_take_iff_getElem.2 ⟨m.idxOf i.op, by omega, List.getElem_idxOf hlen⟩

/-- The place of an operation in the map, as an opcode field, selects that operation. -/
theorem decodeOp_idxOf {m : List Op} {op : Op} (hlt : m.idxOf op < 16) (hmem : op ∈ m) :
    decodeOp m (BitVec.ofNat 8 (m.idxOf op)) = some op := by
  have hsmall : ¬ 0x0F#8 < BitVec.ofNat 8 (m.idxOf op) := by
    rw [BitVec.lt_def, BitVec.toNat_ofNat, BitVec.toNat_ofNat]
    omega
  rw [decodeOp, if_neg hsmall, BitVec.toNat_ofNat, Nat.mod_eq_of_lt (by omega),
    List.getElem?_eq_getElem (List.idxOf_lt_length_of_mem hmem), List.getElem_idxOf]

/-- In a map without repeats a selected operation's place is the opcode that selected it. -/
theorem idxOf_of_decodeOp {m : List Op} {opc : BitVec 8} {op : Op} (hnodup : m.Nodup)
    (hop : decodeOp m opc = some op) : m.idxOf op = opc.toNat := by
  obtain ⟨-, hget⟩ := decodeOp_inv hop
  obtain ⟨hlen, rfl⟩ := List.getElem?_eq_some_iff.1 hget
  exact hnodup.idxOf_getElem _ hlen

/-! ### The instruction word and its fields (rules R50, R51 and R53) -/

/-- A word is put together from its own fields. -/
theorem instrWord_of_fields (w : Word) :
    instrWord (opcodeField w).toNat (field1 w).toNat (field2 w).toNat = w := by
  obtain ⟨hopc, hf1, hf2⟩ := field_values w
  have := w.isLt
  rw [instrWord, hopc, hf1, hf2, ← BitVec.toNat_inj, BitVec.toNat_ofNat]
  omega

/-- An operand has an immediate exactly when the base of its field is 7. -/
theorem k_eq_ite_field (o : Operand) : o.k = if o.field % 8 = 7 then 1 else 0 := by
  cases o with
  | reg r => cases r <;> rfl
  | imm v => rfl
  | derefReg r => cases r <;> rfl
  | derefImm v => simp [Operand.field]

/-- An instruction is its operation with its two operands (rule R50). -/
theorem Instr.op_instr_op1_op2 (i : Instr) : i.op.instr i.op1 i.op2 = i := by
  cases i <;> rfl

/-! ### The statements -/

/-- Settles O1: the three fields of the encoder's word select the operation and the two operands' forms, and each form
takes its own immediates off the words that follow. -/
theorem decodeOfEncodeIsTheInstruction : Obligations.DecodeOfEncodeIsTheInstruction := by
  intro m i rest hwf
  obtain ⟨hlt, hmem⟩ := wellFormed_iff_idxOf_lt.1 hwf
  obtain ⟨hopc, hf1, hf2⟩ := instrWord_fields (m.idxOf i.op) i.op1.field i.op2.field i.op1.field_lt i.op2.field_lt
  simp only [encode, List.cons_append, List.append_assoc, decode, hopc, hf1, hf2, decodeOp_idxOf hlt hmem,
    decodeOperandField_field, Instr.op_instr_op1_op2]

/-- Settles O2: the decoded instruction's fields are the word's, so the encoder puts the same word together, and without
repeats the operation's place is the opcode that selected it. -/
theorem encodeOfDecodeIsTheWords : Obligations.EncodeOfDecodeIsTheWords := by
  intro m ws i rest hnodup hdec
  cases ws with
  | nil => cases hdec
  | cons w ws =>
    obtain ⟨hop, hf1, hf2, hwords⟩ := decode_inv hdec
    have hidx : m.idxOf i.op = (opcodeField w).toNat := idxOf_of_decodeOp hnodup hop
    obtain ⟨hlt, hget⟩ := decodeOp_inv hop
    refine ⟨?_, wellFormed_iff_idxOf_lt.2 ⟨hidx ▸ hlt, List.mem_of_getElem? hget⟩⟩
    rw [encode, hidx, hf1, hf2, instrWord_of_fields, hwords, List.cons_append]

/-- Settles O4: the operands' fields are the word's, and the base of a field tells whether it has an immediate. -/
theorem lengthIsReadOffTheInstructionWord : Obligations.LengthIsReadOffTheInstructionWord := by
  intro m w ws i rest hdec
  obtain ⟨-, hf1, hf2, hwords⟩ := decode_inv hdec
  obtain ⟨-, hv1, hv2⟩ := field_values w
  have hbase1 : i.op1.field % 8 = w.toNat / 16 % 8 := by omega
  have hbase2 : i.op2.field % 8 = w.toNat % 8 := by omega
  exact ⟨hbase1 ▸ k_eq_ite_field i.op1, hbase2 ▸ k_eq_ite_field i.op2, hwords⟩

/-- Settles O6: the decoder run on each of the six lists of words. -/
theorem writtenOutWordsDecode : Obligations.WrittenOutWordsDecode :=
  ⟨rfl, rfl, rfl, rfl, rfl, rfl⟩

end Sys2Proof
end

section
/-! SUPPORT. IN and OUT in the operands' values, and the proofs of the statements about them (spec/43_control_io.md rules
R111 and R112, spec/60_exceptions.md rules R124 and R133). -/

namespace Sys2Proof

open Sys2Proof.Machine Sys2Proof.Claims

/-! ### Operands see registers and memory alone (rules R20, R75 and R76) -/

section
variable {o1 o2 : Operand} {s t : State} (hregs : t.regs = s.regs) (hmem : t.mem = s.mem)
include hregs

theorem resolve_fst_congr : (resolve o1 t).1 = (resolve o1 s).1 := by
  obtain ⟨⟩ := s
  cases hregs
  cases o1 <;> rfl

include hmem

theorem value1_congr : value1 o1 o2 t = value1 o1 o2 s := by
  obtain ⟨⟩ := s
  cases hregs
  cases hmem
  cases o1 with
  | reg r => cases r <;> rfl
  | _ => rfl

theorem value2_congr : value2 o1 o2 t = value2 o1 o2 s := by
  obtain ⟨⟩ := s
  cases hregs
  cases hmem
  cases o2 with
  | reg r => cases r <;> rfl
  | derefReg r => cases r <;> rfl
  | _ => rfl

end

section
variable (o1 o2 : Operand) (s : State) (e : Environment) (r : RunState)

@[simp] theorem reg_withEnv (q : Reg) : ({ s with env := e } : State).reg q = s.reg q := rfl
@[simp] theorem executePc_withEnv : executePc o1 o2 { s with env := e } = executePc o1 o2 s := rfl
@[simp] theorem value1_withEnv : value1 o1 o2 { s with env := e } = value1 o1 o2 s := value1_congr rfl rfl
@[simp] theorem value2_withEnv : value2 o1 o2 { s with env := e } = value2 o1 o2 s := value2_congr rfl rfl
@[simp] theorem resolve_fst_withEnv : (resolve o1 { s with env := e }).1 = (resolve o1 s).1 := resolve_fst_congr rfl

@[simp] theorem value1_setRunState : value1 o1 o2 (s.setRunState r) = value1 o1 o2 s := value1_congr rfl rfl
@[simp] theorem value2_setRunState : value2 o1 o2 (s.setRunState r) = value2 o1 o2 s := value2_congr rfl rfl
@[simp] theorem resolve_fst_setRunState : (resolve o1 (s.setRunState r)).1 = (resolve o1 s).1 := resolve_fst_congr rfl

end

/-! ### What an input channel delivers (rules R18 and R133) -/

/-- An invocation that gives a word is a delivery and changes the environment alone. -/
theorem delivers_of_inPort {s t : State} {i v : Word} (h : s.inPort i = some (v, t)) :
    ∃ e, Delivers s i v e ∧ t = { s with env := e } := by
  rcases s.inPort_cases i with ⟨hnone, -⟩ | ⟨ch, hch, ⟨w, later, hoff, hsome⟩ | ⟨hoff, hholds, hsome⟩ | ⟨-, -, hnone⟩⟩
  · cases hnone.symm.trans h
  · cases hsome.symm.trans h
    exact ⟨_, ⟨ch, hch, .inl ⟨later, hoff, rfl⟩⟩, rfl⟩
  · cases hsome.symm.trans h
    exact ⟨_, ⟨ch, hch, .inr ⟨hoff, hholds, rfl⟩⟩, rfl⟩
  · cases hnone.symm.trans h

/-- An invocation of a connected channel that gives no word is withheld. -/
theorem withheld_of_inPort_eq_none {s : State} {i : Word} (h : s.inPort i = none) (hrange : i.toNat < s.nIn) :
    Withheld s i := by
  rcases s.inPort_cases i with ⟨-, hout⟩ | ⟨ch, hch, ⟨w, later, hoff, hsome⟩ | ⟨hoff, hholds, hsome⟩ | ⟨hoff, hholds, -⟩⟩
  · omega
  · cases hsome.symm.trans h
  · cases hsome.symm.trans h
  · exact ⟨ch, hch, hoff, hholds⟩

/-- What a delivery leaves: one more entry in the trace, the port groups as large as before. -/
theorem delivers_frame {s : State} {i v : Word} {e : Environment} (h : Delivers s i v e) :
    i.toNat < s.nIn ∧ e.trace = s.env.trace ++ [.input i v] ∧ e.inputs.length = s.env.inputs.length ∧
    e.nOut = s.env.nOut := by
  obtain ⟨ch, hch, ⟨later, -, rfl⟩ | ⟨-, -, rfl⟩⟩ := h
  · exact ⟨(List.getElem?_eq_some_iff.1 hch).1, rfl, List.length_set, rfl⟩
  · exact ⟨(List.getElem?_eq_some_iff.1 hch).1, rfl, rfl, rfl⟩

theorem not_delivers_of_withheld {s : State} {i : Word} (hw : Withheld s i) (v : Word) (e : Environment) :
    ¬ Delivers s i v e := by
  rintro ⟨ch, hch, hdel⟩
  obtain ⟨ch', hch', hoff, hholds⟩ := hw
  cases hch.symm.trans hch'
  rcases hdel with ⟨later, hoff', -⟩ | ⟨-, hholds', -⟩
  · cases hoff.symm.trans hoff'
  · cases hholds.symm.trans hholds'

theorem Claims.Withheld.lt_nIn {s : State} {i : Word} (hw : Withheld s i) : i.toNat < s.nIn := by
  obtain ⟨ch, hch, -⟩ := hw
  exact (List.getElem?_eq_some_iff.1 hch).1

/-- A word offered on a channel changes what the environment holds for it, not the trace or the numbers of channels. -/
theorem offer_eq_withEnv (s : State) (i : Nat) (v : Word) :
    ∃ e, s.offer i v = { s with env := e } ∧ e.trace = s.env.trace ∧ e.inputs.length = s.env.inputs.length ∧
      e.nOut = s.env.nOut := by
  unfold State.offer
  cases s.env.inputs[i]? with
  | none => exact ⟨s.env, rfl, rfl, rfl, rfl⟩
  | some ch => exact ⟨_, rfl, rfl, List.length_set, rfl⟩

/-- The channel that withheld its word delivers the one then offered on it. -/
theorem delivers_offer_of_withheld {s : State} {i : Word} (hw : Withheld s i) {v w : Word} {e : Environment}
    (h : Delivers (s.offer i.toNat v) i w e) : w = v ∧ e.trace = s.env.trace ++ [.input i v] := by
  obtain ⟨ch, hch, hoff, -⟩ := hw
  have hoffer : s.offer i.toNat v = s.setChannel i.toNat { ch with offered := [v] } := by
    simp only [State.offer, hch, hoff, List.nil_append]
  have hlt := (List.getElem?_eq_some_iff.1 hch).1
  have htrace := (delivers_frame h).2.1
  obtain ⟨ch', hch', hdel⟩ := h
  rw [hoffer, State.setChannel] at hch'
  cases hch'.symm.trans (List.getElem?_set_self hlt)
  rcases hdel with ⟨later, hv, -⟩ | ⟨hv, -⟩
  · cases hv
    rw [hoffer] at htrace
    exact ⟨rfl, htrace⟩
  · cases hv

/-! ### IN and OUT (rules R111 and R112) -/

/-- Everything the arm of IN can do: the range check raises, the delivered word is stored, or its word is withheld. -/
theorem armIn_cases (a : Word) (d : Slot) (i : Word) (s : State) :
    (s.nIn ≤ i.toNat ∧ armIn a d (.imm i) s = .next (s.raise (.inputChannelRange i))) ∨
    (∃ v e, Delivers s i v e ∧ armIn a d (.imm i) s = writeBack a d v { s with env := e }) ∨
    (Withheld s i ∧ armIn a d (.imm i) s = .fault (.inputHeld i)) := by
  by_cases hout : s.nIn ≤ i.toNat
  · exact .inl ⟨hout, armIn_eq_raise_of_nIn_le hout a d⟩
  · cases hport : s.inPort i with
    | none =>
      exact .inr (.inr ⟨withheld_of_inPort_eq_none hport (Nat.lt_of_not_le hout), by simp [armIn, hout, hport]⟩)
    | some p =>
      obtain ⟨v, t⟩ := p
      obtain ⟨e, hdel, rfl⟩ := delivers_of_inPort hport
      exact .inr (.inl ⟨v, e, hdel, by simp [armIn, hout, hport]⟩)

/-- Everything IN can do, in the operands' values. -/
theorem exec_inp_cases (o1 o2 : Operand) (s : State) :
    (s.nIn ≤ (value2 o1 o2 s).toNat ∧
      exec (.inp o1 o2) s = .next (raisedInExecute o1 o2 s (.inputChannelRange (value2 o1 o2 s)))) ∨
    (∃ v e, Delivers s (value2 o1 o2 s) v e ∧ exec (.inp o1 o2) s = storeResult o1 o2 v { s with env := e }) ∨
    (Withheld s (value2 o1 o2 s) ∧ exec (.inp o1 o2) s = .fault (.inputHeld (value2 o1 o2 s))) := by
  rw [exec_inp]
  rcases armIn_cases s.pc (resolve o1 s).1 (value2 o1 o2 s) (s.setPc (executePc o1 o2 s)) with
    hout | ⟨v, e, hdel, harm⟩ | hheld
  · exact .inl hout
  · refine .inr (.inl ⟨v, e, hdel, ?_⟩)
    rw [harm, storeResult, resolve_fst_withEnv o1 s e]
    rfl
  · exact .inr (.inr hheld)

/-- With a connected channel whose word is not withheld, IN stores the word delivered. -/
theorem exec_inp_of_not_withheld {o1 o2 : Operand} {s : State} (hrange : (value2 o1 o2 s).toNat < s.nIn)
    (hfree : ¬ Withheld s (value2 o1 o2 s)) :
    ∃ v e, Delivers s (value2 o1 o2 s) v e ∧ exec (.inp o1 o2) s = storeResult o1 o2 v { s with env := e } := by
  rcases exec_inp_cases o1 o2 s with ⟨hout, -⟩ | hdel | ⟨hheld, -⟩
  · omega
  · exact hdel
  · exact absurd hheld hfree

/-- OUT in the operands' values: the index check, then the invocation and the loop increment. -/
theorem exec_out (o1 o2 : Operand) (s : State) : exec (.out o1 o2) s =
    if s.nOut ≤ (value1 o1 o2 s).toNat then
      .next (raisedInExecute o1 o2 s (.outputChannelRange (value1 o1 o2 s)))
    else .next ((s.outPort (value1 o1 o2 s) (value2 o1 o2 s)).setPc (executePc o1 o2 s + 1)) := by
  calc exec (.out o1 o2) s
    _ = armOut s.pc (resolve o1 s).1 (resolve o2 (s.setPc (s.pc + BitVec.ofNat 16 o1.k))).1
          (s.setPc (executePc o1 o2 s)) := withSlots_eq o1 o2 s (armOut s.pc)
    _ = _ := by
      rw [armOut, readSlot_resolve_fst, readSlot_resolve_snd]
      rfl

/-! ### The statements -/

/-- Settles O33: the word delivered is stored into operand 1, which takes a write. -/
theorem inWritesTheDeliveredWord : Obligations.InWritesTheDeliveredWord := by
  refine ⟨encodedAs_instr .inp, fun o1 o2 s htakes hrange hfree => ?_⟩
  obtain ⟨v, e, hdel, hexec⟩ := exec_inp_of_not_withheld hrange hfree
  obtain ⟨t, hnext, hwritten⟩ := storeResult_written (s := { s with env := e }) htakes o2 v
  exact ⟨t, v, e, hdel, hexec.trans hnext, hwritten⟩

/-- Settles O35: a withheld channel is connected and delivers nothing, which leaves one of IN's three ways. -/
theorem inIsHeldWhileTheWordIsWithheld : Obligations.InIsHeldWhileTheWordIsWithheld := by
  intro o1 o2 s hheld
  rcases exec_inp_cases o1 o2 s with ⟨hout, -⟩ | ⟨v, e, hdel, -⟩ | ⟨-, hexec⟩
  · exact absurd hheld.lt_nIn (Nat.not_lt_of_le hout)
  · exact absurd hdel (not_delivers_of_withheld hheld v e)
  · exact hexec

/-- A word offered on a withheld channel lifts the hold. -/
theorem not_withheld_offer {s : State} {i : Word} (hheld : Withheld s i) (v : Word) :
    ¬ Withheld (s.offer i.toNat v) i := by
  obtain ⟨ch, hch, -, -⟩ := hheld
  have hlt := (List.getElem?_eq_some_iff.1 hch).1
  rintro ⟨ch', hch', hoff, -⟩
  simp only [State.offer, hch, State.setChannel] at hch'
  cases hch'.symm.trans (List.getElem?_set_self hlt)
  exact absurd hoff (by simp)

/-- Settles O36: after the offer the channel is still connected and no longer withheld, so the one word offered is
delivered and stored. -/
theorem offerLiftsTheHold : Obligations.OfferLiftsTheHold := by
  intro o1 o2 s v hheld htakes
  obtain ⟨e', he', -, hlength, -⟩ := offer_eq_withEnv s (value2 o1 o2 s).toNat v
  have hvalue : value2 o1 o2 (s.offer (value2 o1 o2 s).toNat v) = value2 o1 o2 s := by
    rw [he', value2_withEnv]
  have hrange : (value2 o1 o2 s).toNat < (s.offer (value2 o1 o2 s).toNat v).nIn := by
    rw [he']
    exact hheld.lt_nIn.trans_eq hlength.symm
  have hin := exec_inp_of_not_withheld (o1 := o1) (o2 := o2) (s := s.offer (value2 o1 o2 s).toNat v)
  rw [hvalue] at hin
  obtain ⟨w, e, hdel, hexec⟩ := hin hrange (not_withheld_offer hheld v)
  obtain ⟨rfl, htrace⟩ := delivers_offer_of_withheld hheld hdel
  obtain ⟨t, hnext, hwritten⟩ := storeResult_written (s := { s with env := e }) htakes o2 w
  refine ⟨t, e, ?_, hwritten, htrace⟩
  rw [hexec, he']
  exact hnext

/-- Settles O37: OUT branches on the index, to the invocation or to the raise. -/
theorem outSendsTheSecondOperand : Obligations.OutSendsTheSecondOperand := by
  refine ⟨encodedAs_instr .out, fun o1 o2 s => ⟨fun hrange => ?_, fun hout => ?_⟩⟩
  · rw [exec_out, if_neg (Nat.not_le_of_lt hrange)]
    exact ⟨_, rfl, onlyPcMoved_setPc (s.outPort (value1 o1 o2 s) (value2 o1 o2 s)) _, State.setPc_pc _ _⟩
  · rw [exec_out, if_pos hout]

end Sys2Proof
end

section
/-! SUPPORT. What one instruction can do, said once over all sixteen (spec/40_step_and_operands.md rule R73), for the
statements about every instruction. -/

namespace Sys2Proof

open Sys2Proof.Machine Sys2Proof.Claims

@[simp] theorem Op.instr_op1 (op : Op) (o1 o2 : Operand) : (op.instr o1 o2).op1 = o1 := by cases op <;> rfl
@[simp] theorem Op.instr_op2 (op : Op) (o1 o2 : Operand) : (op.instr o1 o2).op2 = o2 := by cases op <;> rfl

/-! ### The instructions with a result, and the zero divisor -/

/-- An operation with a result stores it, when no zero divisor stops it first (rules R90 to R95 and R100 to R106). -/
theorem exec_of_resultWord {i : Instr} {s : State} {v : Word}
    (hv : resultWord i.op (value1 i.op1 i.op2 s) (value2 i.op1 i.op2 s) = some v)
    (hdivisor : i.op = .div ∨ i.op = .rem → value2 i.op1 i.op2 s ≠ 0#16) :
    exec i s = storeResult i.op1 i.op2 v s := by
  cases i with
  | mov o1 o2 => cases hv; exact exec_mov o1 o2 s
  | add o1 o2 => cases hv; exact exec_add o1 o2 s
  | sub o1 o2 => cases hv; exact exec_sub o1 o2 s
  | mul o1 o2 => cases hv; exact exec_mul o1 o2 s
  | div o1 o2 => cases hv; exact (exec_div o1 o2 s).trans (if_neg (hdivisor (.inl rfl)))
  | rem o1 o2 => cases hv; exact (exec_rem o1 o2 s).trans (if_neg (hdivisor (.inr rfl)))
  | not o1 o2 => cases hv; exact exec_not o1 o2 s
  | and o1 o2 => cases hv; exact exec_and o1 o2 s
  | or o1 o2 => cases hv; exact exec_or o1 o2 s
  | xor o1 o2 => cases hv; exact exec_xor o1 o2 s
  | eq o1 o2 => cases hv; exact exec_eq o1 o2 s
  | le o1 o2 => cases hv; exact exec_le o1 o2 s
  | leq o1 o2 => cases hv; exact exec_leq o1 o2 s
  | jnz o1 o2 => cases hv
  | inp o1 o2 => cases hv
  | out o1 o2 => cases hv

/-- DIV and REM with a zero divisor raise before the store (rules R94 and R95). -/
theorem exec_of_zero_divisor {i : Instr} {s : State} (hop : i.op = .div ∨ i.op = .rem)
    (hzero : value2 i.op1 i.op2 s = 0#16) :
    exec i s = .next (raisedInExecute i.op1 i.op2 s (.divideByZero s.pc)) := by
  cases i with
  | div o1 o2 => exact (exec_div o1 o2 s).trans (if_pos hzero)
  | rem o1 o2 => exact (exec_rem o1 o2 s).trans (if_pos hzero)
  | _ => simp [Instr.op] at hop

/-- An operation has no result exactly when it is JNZ, IN or OUT. -/
theorem resultWord_eq_none_iff {op : Op} {a b : Word} :
    resultWord op a b = none ↔ op = .jnz ∨ op = .inp ∨ op = .out := by
  cases op <;> simp [resultWord]

theorem exists_resultWord {op : Op} (hwrites : Writes op) (hinp : op ≠ .inp) (a b : Word) :
    ∃ v, resultWord op a b = some v := by
  refine Option.ne_none_iff_exists'.1 fun hnone => ?_
  rcases resultWord_eq_none_iff.1 hnone with h | h | h
  · exact hwrites.1 h
  · exact hinp h
  · exact hwrites.2 h

/-- An operation with a result writes operand 1. -/
theorem writes_of_resultWord {op : Op} {a b v : Word} (hv : resultWord op a b = some v) : Writes op := by
  constructor
  · rintro rfl; cases hv
  · rintro rfl; cases hv

/-! ### Storing a result for an immediate, and canonical form -/

/-- A result for an immediate raises in the execute phase with `IMM_WRITE = fault` (rule R125). -/
theorem storeResult_imm_of_fault {s : State} (hfault : s.cfg.immWrite = .fault) (u : Word) (o2 : Operand) (v : Word) :
    storeResult (.imm u) o2 v s = .next (raisedInExecute (.imm u) o2 s (.immediateWrite s.pc)) := by
  rcases writeBack_cases s.pc (.imm u) v (s.setPc (executePc (.imm u) o2 s)) with
    ⟨r, hd, -⟩ | ⟨a, hd, -⟩ | ⟨w, -, hdiscard, -⟩ | ⟨w, -, -, hw⟩
  · cases hd
  · cases hd
  · cases hfault.symm.trans hdiscard
  · exact hw

/-- A store keeps memory in canonical form. -/
theorem storeResult_wf {o1 o2 : Operand} {v : Word} {s t : State} (h : storeResult o1 o2 v s = .next t)
    (hwf : s.mem.wf) : t.mem.wf := by
  rcases writeBack_cases s.pc (resolve o1 s).1 v (s.setPc (executePc o1 o2 s)) with
    ⟨r, -, hw⟩ | ⟨a, -, hw⟩ | ⟨u, -, -, hw⟩ | ⟨u, -, -, hw⟩
  · cases hw.symm.trans h; exact hwf
  · cases hw.symm.trans h; exact State.writeMem_wf (s := s) hwf a v
  · cases hw.symm.trans h; exact hwf
  · cases hw.symm.trans h; exact hwf

/-- Operand 1 takes a write, or it is an immediate and `IMM_WRITE` is `fault` (rules R77 and R125). -/
theorem takesWrite_or_imm_fault (o : Operand) (s : State) :
    TakesWrite o s ∨ ∃ u, o = .imm u ∧ s.cfg.immWrite = .fault := by
  by_cases himm : ∃ u, o = .imm u
  · obtain ⟨u, rfl⟩ := himm
    cases hcfg : s.cfg.immWrite with
    | discard => exact .inl (.inr hcfg)
    | fault => exact .inr ⟨u, rfl, rfl⟩
  · exact .inl (.inl fun u hu => himm ⟨u, hu⟩)

theorem storeResult_eq_next (o1 o2 : Operand) (v : Word) (s : State) : ∃ t, storeResult o1 o2 v s = .next t := by
  rcases takesWrite_or_imm_fault o1 s with htakes | ⟨u, rfl, hfault⟩
  · obtain ⟨t, hnext, -⟩ := storeResult_written htakes o2 v
    exact ⟨t, hnext⟩
  · exact ⟨_, storeResult_imm_of_fault hfault u o2 v⟩

/-! ### The effect of an instruction -/

/-- The instruction comes to its store with the word `v` and the environment `e`: its result with the environment as it
was, or for IN the word that its channel delivered. -/
def Produces (i : Instr) (s : State) (v : Word) (e : Environment) : Prop :=
  (resultWord i.op (value1 i.op1 i.op2 s) (value2 i.op1 i.op2 s) = some v ∧
    (i.op = .div ∨ i.op = .rem → value2 i.op1 i.op2 s ≠ 0#16) ∧ e = s.env) ∨
  (i.op = .inp ∧ Delivers s (value2 i.op1 i.op2 s) v e)

/-- The ways of an instruction, each with the outcome it gives. -/
inductive Effect (i : Instr) (s : State) : Result → Prop
  | stores {v : Word} {e : Environment} (produced : Produces i s v e) :
      Effect i s (storeResult i.op1 i.op2 v { s with env := e })
  | raises {c : FaultCause} (faults : FaultsWith i s c) : Effect i s (.next (raisedInExecute i.op1 i.op2 s c))
  | jumps (hop : i.op = .jnz) :
      Effect i s (.next (s.setPc (if value1 i.op1 i.op2 s = 0#16 then executePc i.op1 i.op2 s + 1
        else value2 i.op1 i.op2 s)))
  | sends (hop : i.op = .out) (hrange : (value1 i.op1 i.op2 s).toNat < s.nOut) :
      Effect i s (.next ((s.outPort (value1 i.op1 i.op2 s) (value2 i.op1 i.op2 s)).setPc
        (executePc i.op1 i.op2 s + 1)))
  | held (hop : i.op = .inp) (hheld : Withheld s (value2 i.op1 i.op2 s)) :
      Effect i s (.fault (.inputHeld (value2 i.op1 i.op2 s)))

theorem effect_jnz (o1 o2 : Operand) (s : State) : Effect (.jnz o1 o2) s (exec (.jnz o1 o2) s) := by
  rw [exec_jnz]
  exact .jumps rfl

theorem effect_inp (o1 o2 : Operand) (s : State) : Effect (.inp o1 o2) s (exec (.inp o1 o2) s) := by
  rcases exec_inp_cases o1 o2 s with ⟨hout, hexec⟩ | ⟨v, e, hdel, hexec⟩ | ⟨hheld, hexec⟩
  · rw [hexec]
    exact .raises (i := .inp o1 o2) (.inr (.inl ⟨rfl, hout, rfl⟩))
  · rw [hexec]
    exact .stores (i := .inp o1 o2) (.inr ⟨rfl, hdel⟩)
  · rw [hexec]
    exact .held (i := .inp o1 o2) rfl hheld

theorem effect_out (o1 o2 : Operand) (s : State) : Effect (.out o1 o2) s (exec (.out o1 o2) s) := by
  rw [exec_out]
  split
  · next hout => exact .raises (i := .out o1 o2) (.inr (.inr (.inl ⟨rfl, hout, rfl⟩)))
  · next hrange => exact .sends (i := .out o1 o2) rfl (Nat.lt_of_not_le hrange)

theorem effect_of_resultWord {i : Instr} {s : State} {v : Word}
    (hv : resultWord i.op (value1 i.op1 i.op2 s) (value2 i.op1 i.op2 s) = some v) : Effect i s (exec i s) := by
  by_cases hzero : (i.op = .div ∨ i.op = .rem) ∧ value2 i.op1 i.op2 s = 0#16
  · rw [exec_of_zero_divisor hzero.1 hzero.2]
    exact .raises (.inl ⟨hzero.1, hzero.2, rfl⟩)
  · have hdivisor : i.op = .div ∨ i.op = .rem → value2 i.op1 i.op2 s ≠ 0#16 := fun hop hz => hzero ⟨hop, hz⟩
    rw [exec_of_resultWord hv hdivisor]
    exact .stores (.inl ⟨hv, hdivisor, rfl⟩)

/-- Everything an instruction can do, for all sixteen. -/
theorem exec_effect (i : Instr) (s : State) : Effect i s (exec i s) := by
  cases i with
  | jnz o1 o2 => exact effect_jnz o1 o2 s
  | inp o1 o2 => exact effect_inp o1 o2 s
  | out o1 o2 => exact effect_out o1 o2 s
  | _ => exact effect_of_resultWord rfl

/-- The next states of an instruction: operand 1 is written, the instruction has raised, or JNZ or OUT has completed. -/
inductive NextState (i : Instr) (s : State) : State → Prop
  | wrote {v : Word} {e : Environment} {t : State} (produced : Produces i s v e)
      (written : Written i.op1 i.op2 v { s with env := e } t) (wf : s.mem.wf → t.mem.wf) : NextState i s t
  | raised {c : FaultCause} {e : Environment} (faults : FaultsWith i s c)
      (henv : e = s.env ∨ i.op = .inp ∧ c = .immediateWrite s.pc ∧ ∃ v, Delivers s (value2 i.op1 i.op2 s) v e) :
      NextState i s (raisedInExecute i.op1 i.op2 { s with env := e } c)
  | jumped (hop : i.op = .jnz) :
      NextState i s (s.setPc (if value1 i.op1 i.op2 s = 0#16 then executePc i.op1 i.op2 s + 1
        else value2 i.op1 i.op2 s))
  | sent (hop : i.op = .out) (hrange : (value1 i.op1 i.op2 s).toNat < s.nOut) :
      NextState i s ((s.outPort (value1 i.op1 i.op2 s) (value2 i.op1 i.op2 s)).setPc (executePc i.op1 i.op2 s + 1))

section
variable {i : Instr} {s : State} {v : Word} {e : Environment}

theorem Produces.writes (h : Produces i s v e) : Writes i.op := by
  rcases h with ⟨hv, -, -⟩ | ⟨hop, -⟩
  · exact writes_of_resultWord hv
  · rw [hop]
    exact ⟨nofun, nofun⟩

/-- An instruction that has come to its store has passed the checks before it. -/
theorem Produces.faultsWith_immediateWrite (h : Produces i s v e) {u : Word} (himm : i.op1 = .imm u)
    (hfault : s.cfg.immWrite = .fault) : FaultsWith i s (.immediateWrite s.pc) := by
  refine .inr (.inr (.inr ⟨h.writes, ⟨u, himm⟩, hfault, fun hdiv => ?_, fun hinp => ?_, rfl⟩))
  · rcases h with ⟨-, hdivisor, -⟩ | ⟨hop, -⟩
    · exact hdivisor hdiv
    · rw [hop] at hdiv
      rcases hdiv with h | h <;> cases h
  · rcases h with ⟨hv, -, -⟩ | ⟨-, hdel⟩
    · rw [hinp] at hv
      cases hv
    · exact (delivers_frame hdel).1

/-- A store is a write to operand 1 or the raise for an immediate. -/
theorem Produces.nextState {t : State} (h : Produces i s v e)
    (hnext : storeResult i.op1 i.op2 v { s with env := e } = .next t) : NextState i s t := by
  rcases takesWrite_or_imm_fault i.op1 { s with env := e } with htakes | ⟨u, himm, hfault⟩
  · obtain ⟨t', hnext', hwritten⟩ := storeResult_written htakes i.op2 v
    cases hnext'.symm.trans hnext
    exact .wrote h hwritten fun hwf => storeResult_wf hnext hwf
  · have hraise := storeResult_imm_of_fault hfault u i.op2 v
    rw [← himm] at hraise
    cases hraise.symm.trans hnext
    refine .raised (h.faultsWith_immediateWrite himm hfault) ?_
    rcases h with ⟨-, -, henv⟩ | ⟨hop, hdel⟩
    · exact .inl henv
    · exact .inr ⟨hop, rfl, v, hdel⟩

end

/-- Everything an instruction that answers a next state can have done. -/
theorem exec_nextState {i : Instr} {s t : State} (h : exec i s = .next t) : NextState i s t := by
  have heffect := exec_effect i s
  rw [h] at heffect
  generalize hres : (Host.Outcome.next t : Result) = res at heffect
  cases heffect with
  | stores produced => exact produced.nextState hres.symm
  | raises faults => cases hres; exact .raised faults (.inl rfl)
  | jumps hop => cases hres; exact .jumped hop
  | sends hop hrange => cases hres; exact .sent hop hrange
  | held hop hheld => cases hres

end Sys2Proof
end

section
/-! SUPPORT. The proofs of the statements about every instruction: control flow, faults and the frame
(spec/43_control_io.md rules R113 and R114, spec/60_exceptions.md rules R120 to R133). -/

namespace Sys2Proof

open Sys2Proof.Machine Sys2Proof.Claims

/-! ### Control -/

/-- Settles O38: the next state of a store and of OUT is one past `A + k`, and JNZ was not taken. -/
theorem controlIsSequentialOtherwise : Obligations.ControlIsSequentialOtherwise := by
  intro i s t hexec hnofault hjnz hpc
  cases exec_nextState hexec with
  | wrote produced written =>
    have hnotpc : i.op1 ≠ .reg .pc := fun h => hpc ⟨produced.writes, h⟩
    simpa [hnotpc] using written.counter
  | raised faults => exact absurd ⟨_, rfl⟩ hnofault
  | jumped hop =>
    have hnottaken : value1 i.op1 i.op2 s = 0#16 := by_contra fun h => hjnz ⟨hop, h⟩
    simp [hnottaken]
  | sent hop hrange => exact State.setPc_pc _ _

/-! ### Faults -/

/-- The run state is kept, or it is Faulted with a cause of the fault table (rule R120). -/
theorem NextState.runState {i : Instr} {s t : State} (h : NextState i s t) :
    t.runState = s.runState ∨ ∃ c, t.runState = .faulted c ∧ FaultsWith i s c := by
  cases h with
  | wrote produced written => exact .inl written.runState
  | raised faults => exact .inr ⟨_, rfl, faults⟩
  | jumped hop => exact .inl rfl
  | sent hop hrange => exact .inl rfl

/-- With `IMM_WRITE = fault` a writing instruction other than IN raises for an immediate first operand, when no zero
divisor has raised before (rule R125). -/
theorem exec_imm_of_fault {i : Instr} {s : State} {u : Word} (himm : i.op1 = .imm u) (hwrites : Writes i.op)
    (hinp : i.op ≠ .inp) (hfault : s.cfg.immWrite = .fault)
    (hdivisor : i.op = .div ∨ i.op = .rem → value2 i.op1 i.op2 s ≠ 0#16) :
    exec i s = .next (raisedInExecute i.op1 i.op2 s (.immediateWrite s.pc)) := by
  obtain ⟨v, hv⟩ := exists_resultWord hwrites hinp (value1 i.op1 i.op2 s) (value2 i.op1 i.op2 s)
  rw [exec_of_resultWord hv hdivisor, himm]
  exact storeResult_imm_of_fault hfault u i.op2 v

/-- With `IMM_WRITE = fault` an IN with an immediate first operand has taken its word when it raises (rule R125). -/
theorem exec_inp_imm_of_fault {s : State} {u : Word} {o2 : Operand} (hfault : s.cfg.immWrite = .fault)
    (hrange : (value2 (.imm u) o2 s).toNat < s.nIn) (hfree : ¬ Withheld s (value2 (.imm u) o2 s)) :
    ∃ v e, Delivers s (value2 (.imm u) o2 s) v e ∧ exec (.inp (.imm u) o2) s =
      .next (raisedInExecute (.imm u) o2 { s with env := e } (.immediateWrite s.pc)) := by
  obtain ⟨v, e, hdel, hexec⟩ := exec_inp_of_not_withheld hrange hfree
  exact ⟨v, e, hdel, hexec.trans (storeResult_imm_of_fault (s := { s with env := e }) hfault u o2 v)⟩

/-- Settles O39: the store raises for an immediate, a zero divisor and a range check raise before it, and with `discard`
the condition of `ImmediateWrite` never holds. -/
theorem immediateWriteRaisesWhenConfigured : Obligations.ImmediateWriteRaisesWhenConfigured := by
  refine ⟨fun op u o2 s hwrites hfault => ⟨fun hinp hdivisor => ?_, fun hop hzero => ?_, fun hop hrange hfree => ?_⟩,
    fun i s t a hdiscard hnofault hexec hraised => ?_⟩
  · simpa using exec_imm_of_fault (i := op.instr (.imm u) o2) (u := u) (by simp) (by simpa using hwrites)
      (by simpa using hinp) hfault (by simpa using hdivisor)
  · simpa using exec_of_zero_divisor (i := op.instr (.imm u) o2) (by simpa using hop) (by simpa using hzero)
  · subst hop
    exact exec_inp_imm_of_fault hfault hrange hfree
  · rcases (exec_nextState hexec).runState with hkept | ⟨c, hc, hfaults⟩
    · exact hnofault ⟨_, hkept.symm.trans hraised⟩
    · cases hc.symm.trans hraised
      rcases hfaults with ⟨-, -, h⟩ | ⟨-, -, h⟩ | ⟨-, -, h⟩ | ⟨-, -, hfault, -⟩
      · cases h
      · cases h
      · cases h
      · cases hdiscard.symm.trans hfault

/-- What a discarded write leaves differs in `pc` alone (rule R77). -/
theorem onlyPcMoved_of_written_imm {u v : Word} {o2 : Operand} {s t : State} (h : Written (.imm u) o2 v s t) :
    OnlyPcMoved s t ∧ t.pc = executePc (.imm u) o2 s + 1 :=
  ⟨⟨fun r hr => by simpa using h.registers r hr, h.kept nofun, h.runState, h.cfg, h.env⟩, by simpa using h.counter⟩

/-- Settles O40: the result of a writing instruction is stored into an immediate that takes it, and so dropped. -/
theorem discardedWriteChangesNothing : Obligations.DiscardedWriteChangesNothing := by
  intro op u o2 s hwrites hdiscard hinp hdivisor
  obtain ⟨v, hv⟩ := exists_resultWord hwrites hinp (value1 (.imm u) o2 s) (value2 (.imm u) o2 s)
  have hexec : exec (op.instr (.imm u) o2) s = storeResult (.imm u) o2 v s := by
    simpa using exec_of_resultWord (i := op.instr (.imm u) o2) (s := s) (v := v) (by simpa using hv)
      (by simpa using hdivisor)
  obtain ⟨t, hnext, hwritten⟩ := exec_written hexec (.inr hdiscard)
  exact ⟨t, hnext, onlyPcMoved_of_written_imm hwritten⟩

/-- An instruction under a condition of the fault table raises that cause (rules R122 to R125). -/
theorem runState_of_faultsWith {i : Instr} {s t : State} {c : FaultCause} (hfaults : FaultsWith i s c)
    (hexec : exec i s = .next t) : t.runState = .faulted c := by
  rcases hfaults with ⟨hop, hzero, rfl⟩ | ⟨hop, hout, rfl⟩ | ⟨hop, hout, rfl⟩ |
    ⟨hwrites, ⟨u, himm⟩, hfault, hdivisor, hrange, rfl⟩
  · cases (exec_of_zero_divisor hop hzero).symm.trans hexec
    rfl
  · cases i <;> cases hop
    cases (inOutOfRangeRaises _ _ s hout).symm.trans hexec
    rfl
  · cases i <;> cases hop
    cases ((exec_out _ _ s).trans (if_pos hout)).symm.trans hexec
    rfl
  · by_cases hinp : i.op = .inp
    · cases i <;> cases hinp
      cases himm
      have hfree : ¬ Withheld s (value2 (.imm u) _ s) := fun hheld => by
        cases (inIsHeldWhileTheWordIsWithheld _ _ s hheld).symm.trans hexec
      obtain ⟨v, e, -, hraise⟩ := exec_inp_imm_of_fault hfault (hrange rfl) hfree
      cases hraise.symm.trans hexec
      rfl
    · cases (exec_imm_of_fault himm hwrites hinp hfault hdivisor).symm.trans hexec
      rfl

/-- Settles O42: a raise comes from a condition of the table, and a condition of the table ends in its raise. -/
theorem raisesExactlyUnderTheListedConditions : Obligations.RaisesExactlyUnderTheListedConditions := by
  intro i s t hnofault hexec c
  refine ⟨fun hraised => ?_, fun hfaults => runState_of_faultsWith hfaults hexec⟩
  rcases (exec_nextState hexec).runState with hkept | ⟨c', hc', hfaults⟩
  · exact absurd ⟨c, hkept.symm.trans hraised⟩ hnofault
  · cases hc'.symm.trans hraised
    exact hfaults

/-- Settles O43: of an instruction's ways, the hold of IN alone gives no next state. -/
theorem onlyAWithheldInputStopsAnInstruction : Obligations.OnlyAWithheldInputStopsAnInstruction := by
  intro i s
  have heffect := exec_effect i s
  generalize exec i s = res at heffect ⊢
  cases heffect with
  | stores produced => exact .inl (storeResult_eq_next _ _ _ _)
  | raises faults => exact .inl ⟨_, rfl⟩
  | jumps hop => exact .inl ⟨_, rfl⟩
  | sends hop hrange => exact .inl ⟨_, rfl⟩
  | held hop hheld => exact .inr ⟨hop, hheld, rfl⟩

/-! ### The frame -/

/-- Settles O54: a write changes the register or cell that is operand 1, a raise, JNZ and OUT change none. -/
theorem onlyTheFirstOperandIsWritten : Obligations.OnlyTheFirstOperandIsWritten := by
  intro i s t hexec
  cases exec_nextState hexec with
  | wrote produced written =>
    refine ⟨fun r hr hchanged => ⟨produced.writes, ?_⟩, fun b hchanged => ⟨produced.writes, ?_⟩⟩
    · by_contra hne
      exact hchanged (by simpa [hne] using written.registers r hr)
    · by_contra hne
      by_cases hmem : ∃ a, (resolve i.op1 s).1 = .mem a
      · obtain ⟨a, ha⟩ := hmem
        have hother : b ≠ a := fun h => hne (h ▸ ha)
        exact hchanged ((written.stored a (by simpa using ha)).2 b hother)
      · exact hchanged (written.kept (fun a ha => hmem ⟨a, by simpa using ha⟩) b)
  | raised faults => exact ⟨fun r hr h => absurd (by simp [raisedInExecute, hr]) h, fun b h => absurd rfl h⟩
  | jumped hop => exact ⟨fun r hr h => absurd (by simp [hr]) h, fun b h => absurd rfl h⟩
  | sent hop hrange => exact ⟨fun r hr h => absurd (by simp [hr, State.outPort]) h, fun b h => absurd rfl h⟩

/-- The environment of a next state (rules R19 and R114): IN alone takes a delivery, OUT alone sends. -/
theorem NextState.env {i : Instr} {s t : State} (h : NextState i s t) :
    t.env = s.env ∨ (i.op = .inp ∧ ∃ v, Delivers s (value2 i.op1 i.op2 s) v t.env) ∨
    (i.op = .out ∧ (value1 i.op1 i.op2 s).toNat < s.nOut ∧ t.env =
      { s.env with trace := s.env.trace ++ [.output (value1 i.op1 i.op2 s) (value2 i.op1 i.op2 s)] }) := by
  cases h with
  | wrote produced written =>
    rw [written.env]
    rcases produced with ⟨-, -, henv⟩ | ⟨hop, hdel⟩
    · exact .inl henv
    · exact .inr (.inl ⟨hop, _, hdel⟩)
  | raised faults henv => exact henv.imp id fun ⟨hop, _, hdel⟩ => .inl ⟨hop, hdel⟩
  | jumped hop => exact .inl rfl
  | sent hop hrange => exact .inr (.inr ⟨hop, hrange, rfl⟩)

/-- Settles O55: a delivery and a sending each add the one entry. -/
theorem onlyInAndOutReachOutside : Obligations.OnlyInAndOutReachOutside := by
  intro i s t hexec
  rcases (exec_nextState hexec).env with hkept | ⟨hop, v, hdel⟩ | ⟨hop, -, hsent⟩
  · exact .inl hkept
  · obtain ⟨-, htrace, -, hnOut⟩ := delivers_frame hdel
    exact .inr (.inl ⟨hop, v, htrace, hnOut⟩)
  · exact .inr (.inr ⟨hop, hsent⟩)

/-! ### Noninterference of the environment (rules R20 and R21) -/

/-- A write-back does the same with another environment. -/
theorem writeBack_withEnv {a v : Word} {d : Slot} {s t : State} (h : writeBack a d v s = .next t) (e : Environment) :
    writeBack a d v { s with env := e } = .next { t with env := e } := by
  cases d with
  | reg r => cases h; rfl
  | mem b => cases h; rfl
  | imm u =>
    cases hcfg : s.cfg.immWrite with
    | discard =>
      simp only [writeBack, hcfg] at h ⊢
      cases h
      rfl
    | fault =>
      simp only [writeBack, hcfg] at h ⊢
      cases h
      rfl

theorem storeResult_withEnv {o1 o2 : Operand} {v : Word} {s t : State} (h : storeResult o1 o2 v s = .next t)
    (e : Environment) : storeResult o1 o2 v { s with env := e } = .next { t with env := e } := by
  rw [storeResult, resolve_fst_withEnv o1 s e]
  exact writeBack_withEnv h e

/-- Settles O56: such an instruction stores its result, raises for a zero divisor or jumps, each by the operands' values,
which the environment is no part of. -/
theorem environmentIsInvisibleToTheOthers : Obligations.EnvironmentIsInvisibleToTheOthers := by
  intro i s t e hinp hout hexec
  by_cases hjnz : i.op = .jnz
  · cases i <;> cases hjnz
    cases (exec_jnz _ _ s).symm.trans hexec
    rw [exec_jnz, value1_withEnv _ _ s e, value2_withEnv _ _ s e]
    rfl
  · obtain ⟨v, hv⟩ := exists_resultWord ⟨hjnz, hout⟩ hinp (value1 i.op1 i.op2 s) (value2 i.op1 i.op2 s)
    by_cases hzero : (i.op = .div ∨ i.op = .rem) ∧ value2 i.op1 i.op2 s = 0#16
    · cases (exec_of_zero_divisor hzero.1 hzero.2).symm.trans hexec
      exact exec_of_zero_divisor hzero.1 (by simpa using hzero.2)
    · have hdivisor : i.op = .div ∨ i.op = .rem → value2 i.op1 i.op2 s ≠ 0#16 := fun hop hz => hzero ⟨hop, hz⟩
      have hstore := (exec_of_resultWord hv hdivisor).symm.trans hexec
      rw [← storeResult_withEnv hstore e]
      exact exec_of_resultWord (by simpa using hv) (by simpa using hdivisor)

end Sys2Proof
end

section
/-! SUPPORT. The proofs of the statements about one step: the halt check, the fetch, the raise and the store in front of
the next fetch (spec/40_step_and_operands.md rule R70, spec/60_exceptions.md rule R126, spec/20_memory.md rule R41). -/

namespace Sys2Proof

open Sys2Proof.Machine Sys2Proof.Claims

/-! ### The fetch and what a step then is -/

theorem fetch_eq_ok_iff {s : State} {i : Instr} :
    s.fetch = .ok i ↔ ∃ rest, decode s.cfg.opcodeMap s.fetchWords = .ok (i, rest) := by
  unfold State.fetch
  cases hdec : decode s.cfg.opcodeMap s.fetchWords with
  | error e => simp
  | ok p => simp [Prod.ext_iff]

/-- Settles O7: past the halt check an iteration runs the fetched instruction. -/
theorem stepRunsTheDecodedInstruction : Obligations.StepRunsTheDecodedInstruction := by
  intro s i rest henabled hpc hdec
  have hfetch : (s.setRunState .running).fetch = .ok i := fetch_eq_ok_iff.2 ⟨rest, hdec⟩
  have hrun : step s = runInstruction s := (step_eq_haltOrRun henabled).trans (if_neg hpc)
  rw [hrun]
  rcases runInstruction_cases s with ⟨j, hok, hexec⟩ | ⟨e, herr, -⟩
  · cases hok.symm.trans hfetch
    exact hexec
  · cases herr.symm.trans hfetch

/-- A step at the sentinel halts (rule R147). -/
theorem step_of_pc_eq_haltPc {s : State} (henabled : s.Enabled) (hpc : s.pc = haltPc) :
    step s = .next (s.setRunState .halted) :=
  (step_eq_haltOrRun henabled).trans (if_pos hpc)

/-- Everything a step that answers a next state can do, down to the ways of its instruction. -/
theorem step_nextState {s t : State} (h : step s = .next t) :
    (s.pc = haltPc ∧ t = s.setRunState .halted) ∨
    (s.pc ≠ haltPc ∧ ∃ i rest, decode s.cfg.opcodeMap s.fetchWords = .ok (i, rest) ∧
      NextState i (s.setRunState .running) t) ∨
    (s.pc ≠ haltPc ∧ t = s.raise (.illegalOpcode (s.readMem s.pc))) := by
  obtain ⟨-, hhalt | ⟨hpc, i, hfetch, hexec⟩ | hillegal⟩ := step_cases h
  · exact .inl hhalt
  · obtain ⟨rest, hdec⟩ := fetch_eq_ok_iff.1 hfetch
    exact .inr (.inl ⟨hpc, i, rest, hdec, exec_nextState hexec⟩)
  · exact .inr (.inr hillegal)

/-! ### The halt check -/

/-- An instruction leaves the machine Running or Faulted, never Halted. -/
theorem NextState.runState_ne_halted {i : Instr} {s t : State} (h : NextState i (s.setRunState .running) t) :
    t.runState ≠ .halted := by
  rcases h.runState with hkept | ⟨c, hc, -⟩
  · rw [hkept]
    nofun
  · rw [hc]
    nofun

/-- Settles O9: the halt check alone gives Halted. -/
theorem haltsExactlyAtTheSentinel : Obligations.HaltsExactlyAtTheSentinel := by
  refine fun s henabled => ⟨step_of_pc_eq_haltPc henabled, fun t hstep => ?_⟩
  rcases step_nextState hstep with ⟨hpc, rfl⟩ | ⟨hpc, i, rest, -, hnext⟩ | ⟨hpc, rfl⟩
  · exact ⟨fun _ => hpc, fun _ => rfl⟩
  · exact ⟨fun hhalted => absurd hhalted hnext.runState_ne_halted, fun h => absurd h hpc⟩
  · exact ⟨nofun, fun h => absurd h hpc⟩

/-- Settles O11: the control loop answers a stop before it does anything else. -/
theorem stoppedMachineTakesNoStep : Obligations.StoppedMachineTakesNoStep :=
  fun s => ⟨fun hhalted => by simp [step, controlLoop, hhalted], fun c hfaulted => by simp [step, controlLoop, hfaulted]⟩

/-- Settles O12: either run state passes to the halt check, and both ways from it set the run state. -/
theorem readyAndRunningStepAlike : Obligations.ReadyAndRunningStepAlike := by
  intro s
  have hready : step (s.setRunState .ready) = haltOrRun (s.setRunState .ready) := step_eq_haltOrRun (.inl rfl)
  have hrunning : step (s.setRunState .running) = haltOrRun (s.setRunState .running) := step_eq_haltOrRun (.inr rfl)
  rw [hready, hrunning]
  rfl

/-- Settles O13: the jump is taken to the sentinel, where the next step halts. -/
theorem haltIdiomEndsTheRun : Obligations.HaltIdiomEndsTheRun := by
  intro s henabled hpc hmap hword himm1 himm2
  have hdec : decode s.cfg.opcodeMap [s.readMem s.pc, s.readMem (s.pc + 1), s.readMem (s.pc + 2)] =
      .ok (.jnz (.imm 1) (.imm 0xFFFF), []) := by
    rw [hmap, hword, himm1, himm2]
    rfl
  have hfirst : step s = .next ((s.setRunState .running).setPc haltPc) :=
    (stepRunsTheDecodedInstruction s _ [] henabled hpc hdec).trans (exec_jnz _ _ _)
  have hsecond := step_of_pc_eq_haltPc (s := (s.setRunState .running).setPc haltPc) (.inr rfl) (State.setPc_pc _ _)
  exact ⟨_, _, hfirst, hsecond, rfl, onlyPcMoved_setPc (s.setRunState .halted) haltPc⟩

/-! ### A placed word (log entry 5) -/

/-- A state made ready for the fetch passes the halt check, with its configuration kept. -/
theorem readyToFetch_spec (s : State) :
    s.readyToFetch.Enabled ∧ s.readyToFetch.pc ≠ haltPc ∧ s.readyToFetch.cfg = s.cfg := by
  have running : ∀ t : State, t.Enabled →
      (if t.pc = haltPc then t.setPc resetPc else t).Enabled ∧
      (if t.pc = haltPc then t.setPc resetPc else t).pc ≠ haltPc ∧
      (if t.pc = haltPc then t.setPc resetPc else t).cfg = t.cfg := by
    intro t ht
    split
    · exact ⟨ht, by rw [State.setPc_pc]; decide, rfl⟩
    · next hpc => exact ⟨ht, hpc, rfl⟩
  unfold State.readyToFetch
  cases hrun : s.runState with
  | ready => exact running s (.inl hrun)
  | running => exact running s (.inr hrun)
  | halted => exact running (s.setRunState .running) (.inr rfl)
  | faulted c => exact running (s.setRunState .running) (.inr rfl)

/-- Three words stored from `pc` up, with wrap-around, are the words of the next fetch. -/
theorem fetchWords_writeWords (s : State) (u v w : Word) : (s.writeWords s.pc [u, v, w]).fetchWords = [u, v, w] := by
  have hsum : s.pc + 1 + 1 = s.pc + 2 := by bv_omega
  have h01 : s.pc ≠ s.pc + 1 := by bv_omega
  have h02 : s.pc ≠ s.pc + 2 := by bv_omega
  have h12 : s.pc + 1 ≠ s.pc + 2 := by bv_omega
  have hwords : s.writeWords s.pc [u, v, w] =
      ((s.writeMem s.pc u).writeMem (s.pc + 1) v).writeMem (s.pc + 2) w := by
    rw [← hsum]
    rfl
  simp only [hwords, State.fetchWords, State.writeMem_pc, Machine.State.writeMem_readMem, if_neg h01, if_neg h02,
    if_neg h12, if_true]

theorem fetchWords_withFetchWord (s : State) (nbits w : Nat) :
    (s.withFetchWord nbits w).fetchWords = tableWords nbits w :=
  fetchWords_writeWords s.readyToFetch _ _ _

theorem decode_of_decodeTableWord {nbits w : Nat} {i : Instr} (h : decodeTableWord nbits w = some i) :
    ∃ rest, decode Config.tableOrder (tableWords nbits w) = .ok (i, rest) := by
  unfold decodeTableWord at h
  split at h
  · next j rest hj =>
    cases h
    exact ⟨rest, hj⟩
  · cases h

/-- Settles O14: the three words placed at `pc` are the words of the next fetch. -/
theorem placedWordRunsNext : Obligations.PlacedWordRunsNext := by
  intro s nbits w i hmap hdec
  obtain ⟨henabled, hpc, hcfg⟩ := readyToFetch_spec s
  obtain ⟨rest, hdecoded⟩ := decode_of_decodeTableWord hdec
  have hmap' : (s.withFetchWord nbits w).cfg.opcodeMap = Config.tableOrder := (congrArg Config.opcodeMap hcfg).trans hmap
  refine stepRunsTheDecodedInstruction (s.withFetchWord nbits w) i rest henabled hpc ?_
  rw [hmap', ← hdecoded, ← fetchWords_withFetchWord s]
  rfl

/-! ### The raise and the self-modifying store -/

/-- An operand has at most one immediate word (rule R53). -/
theorem k_le_one (o : Operand) : o.k ≤ 1 := by
  rw [k_eq_ite_field]
  split <;> omega

/-- `A + k` with at most one immediate word for each operand (rules R12 and R53). -/
theorem executePc_cases (o1 o2 : Operand) (s : State) :
    executePc o1 o2 s = s.pc ∨ executePc o1 o2 s = s.pc + 1 ∨ executePc o1 o2 s = s.pc + 2 := by
  have hk : o1.k + o2.k = 0 ∨ o1.k + o2.k = 1 ∨ o1.k + o2.k = 2 := by
    have := k_le_one o1
    have := k_le_one o2
    omega
  rw [executePc]
  rcases hk with hk | hk | hk
  · exact .inl (by simp [hk])
  · exact .inr (.inl (by rw [hk]; rfl))
  · exact .inr (.inr (by rw [hk]; rfl))

/-- Settles O41: an illegal opcode raises in place and an instruction in the execute phase, where `pc` has moved over the
immediates and only the IN stopped at its store has reached outside. -/
theorem faultIsPrecise : Obligations.FaultIsPrecise := by
  intro s t c hstep hraised
  rcases step_nextState hstep with ⟨-, rfl⟩ | ⟨-, i, rest, hdec, hnext⟩ | ⟨-, rfl⟩
  · cases hraised
  · cases hnext with
    | wrote produced written => cases written.runState.symm.trans hraised
    | raised faults henv =>
      cases hraised
      refine ⟨fun r hr => ?_, fun _ => rfl, executePc_cases i.op1 i.op2 s, rfl, rfl, ?_, ?_⟩
      · simp only [raisedInExecute, State.raise_reg, State.setPc_reg, if_neg hr]
        rfl
      · refine henv.imp id fun ⟨hop, hcause, v, hdel⟩ => ?_
        cases i <;> cases hop
        rw [value2_setRunState] at hdel
        exact ⟨_, _, rest, v, hcause, hdec, hdel⟩
      · rintro n rfl
        rcases faults with ⟨-, -, h⟩ | ⟨-, -, h⟩ | ⟨-, -, h⟩ | ⟨-, -, -, -, -, h⟩ <;> cases h
    | jumped hop => cases hraised
    | sent hop hrange => cases hraised
  · cases hraised
    exact ⟨fun _ _ => rfl, fun _ => rfl, .inl rfl, rfl, rfl, .inl rfl, nofun⟩

/-- Settles O45: the store is to the cell at `pc`, which the next fetch reads first. -/
theorem storedWordIsFetchedNext : Obligations.StoredWordIsFetchedNext := by
  intro s t i rest henabled hpc hdec hstep hnofault hwrites hself
  rw [stepRunsTheDecodedInstruction s i rest henabled hpc hdec] at hstep
  cases exec_nextState hstep with
  | wrote produced written =>
    have hslot := (resolve_fst_setRunState i.op1 s .running).trans hself
    have hread := (written.stored t.pc ((resolve_fst_withEnv _ _ _).trans hslot)).1
    rcases produced with ⟨hv, -, -⟩ | ⟨hop, hdel⟩
    · refine ⟨_, congrArg some hread, fun _ => by simpa using hv, fun hinp => ?_⟩
      rw [hinp] at hv
      cases hv
    · refine ⟨_, congrArg some hread, fun hinp => absurd hop hinp, fun _ => ?_⟩
      rw [value2_setRunState] at hdel
      rw [written.env]
      exact hdel
  | raised faults => exact absurd ⟨_, rfl⟩ hnofault
  | jumped hop => exact absurd hop hwrites.1
  | sent hop hrange => exact absurd hop hwrites.2

end Sys2Proof
end

section
/-! SUPPORT. The proofs of the statements about the invariant, the event trace and runs, and about memory and the load
(spec/70_reset_and_hazards.md, spec/20_memory.md, spec/10_state.md rules R16, R19 and R22). -/

namespace Sys2Proof

open Sys2Proof.Machine Sys2Proof.Claims

/-! ### What every instruction keeps -/

/-- Configuration and the numbers of channels (rules R29 and R143). -/
theorem NextState.cfg_nIn_nOut {i : Instr} {s t : State} (h : NextState i s t) :
    t.cfg = s.cfg ∧ t.nIn = s.nIn ∧ t.nOut = s.nOut := by
  have hcfg : t.cfg = s.cfg := by
    cases h with
    | wrote produced written => exact written.cfg
    | raised faults => rfl
    | jumped hop => rfl
    | sent hop hrange => rfl
  rcases h.env with hkept | ⟨-, v, hdel⟩ | ⟨-, -, hsent⟩
  · exact ⟨hcfg, by rw [State.nIn, hkept, State.nIn], by rw [State.nOut, hkept, State.nOut]⟩
  · obtain ⟨-, -, hnIn, hnOut⟩ := delivers_frame hdel
    exact ⟨hcfg, hnIn, hnOut⟩
  · exact ⟨hcfg, by rw [State.nIn, hsent, State.nIn], by rw [State.nOut, hsent, State.nOut]⟩

/-- Memory stays in canonical form (rules R15 and R31). -/
theorem NextState.mem_wf {i : Instr} {s t : State} (h : NextState i s t) (hwf : s.mem.wf) : t.mem.wf := by
  cases h with
  | wrote produced written wf => exact wf hwf
  | raised faults => exact hwf
  | jumped hop => exact hwf
  | sent hop hrange => exact hwf

/-- The trace grows at its end, by events on connected channels (rules R19, R111 and R112). -/
theorem NextState.trace {i : Instr} {s t : State} (h : NextState i s t) :
    ∃ es, t.env.trace = s.env.trace ++ es ∧ ∀ e ∈ es, e.Connected s := by
  rcases h.env with hkept | ⟨-, v, hdel⟩ | ⟨-, hrange, hsent⟩
  · exact ⟨[], by simp [hkept], nofun⟩
  · obtain ⟨hrange, htrace, -⟩ := delivers_frame hdel
    exact ⟨_, htrace, by simpa [Event.Connected] using hrange⟩
  · exact ⟨[.output _ _], by rw [hsent], by simpa [Event.Connected] using hrange⟩

/-! ### What every step keeps -/

/-- Settles O53: the halt check and an illegal opcode touch the run state alone, and every instruction keeps both. -/
theorem stepKeepsConfigurationAndChannels : Obligations.StepKeepsConfigurationAndChannels := by
  intro s t hstep
  rcases step_nextState hstep with ⟨-, rfl⟩ | ⟨-, i, rest, -, hnext⟩ | ⟨-, rfl⟩
  · exact ⟨rfl, rfl, rfl⟩
  · exact hnext.cfg_nIn_nOut
  · exact ⟨rfl, rfl, rfl⟩

theorem connected_of_eq {s t : State} (hnIn : t.nIn = s.nIn) (hnOut : t.nOut = s.nOut) {e : Event}
    (h : e.Connected s) : e.Connected t := by
  cases e with
  | input i v => exact h.trans_eq hnIn.symm
  | output i v => exact h.trans_eq hnOut.symm

/-- The trace of a step, as that of its instruction. -/
theorem step_trace {s t : State} (h : step s = .next t) :
    ∃ es, t.env.trace = s.env.trace ++ es ∧ ∀ e ∈ es, e.Connected s := by
  rcases step_nextState h with ⟨-, rfl⟩ | ⟨-, i, rest, -, hnext⟩ | ⟨-, rfl⟩
  · exact ⟨[], by simp, nofun⟩
  · obtain ⟨es, htrace, hes⟩ := hnext.trace
    exact ⟨es, htrace, fun e he => connected_of_eq rfl rfl (hes e he)⟩
  · exact ⟨[], by simp, nofun⟩

/-- Settles O51: memory by the one store of a step, the sentinel by the halt check, and the trace by its new events. -/
theorem stepKeepsTheInvariant : Obligations.StepKeepsTheInvariant := by
  intro s t hinv hstep
  obtain ⟨-, hnIn, hnOut⟩ := stepKeepsConfigurationAndChannels s t hstep
  refine ⟨?memory, ?halted, fun e he => connected_of_eq hnIn hnOut ?trace⟩
  case memory =>
    rcases step_nextState hstep with ⟨-, rfl⟩ | ⟨-, i, rest, -, hnext⟩ | ⟨-, rfl⟩
    · exact hinv.memory
    · exact hnext.mem_wf hinv.memory
    · exact hinv.memory
  case halted =>
    intro hhalted
    rcases step_nextState hstep with ⟨hpc, rfl⟩ | ⟨-, i, rest, -, hnext⟩ | ⟨-, rfl⟩
    · exact hpc
    · exact absurd hhalted hnext.runState_ne_halted
    · cases hhalted
  case trace =>
    obtain ⟨es, htrace, hes⟩ := step_trace hstep
    rw [htrace] at he
    exact (List.mem_append.1 he).elim (hinv.trace e) (hes e)

/-! ### Runs -/

/-- Settles O57: each step of the run extends the trace. -/
theorem runsExtendTheTrace : Obligations.RunsExtendTheTrace := by
  intro s t hrun
  induction hrun with
  | refl => exact List.prefix_rfl
  | step run hstep ih =>
    obtain ⟨es, htrace, -⟩ := step_trace hstep
    exact ih.trans ⟨es, htrace.symm⟩

theorem step_ne_next_of_stopped {s : State} (hstopped : s.EndedWell ∨ s.Faulted) (t : State) : step s ≠ .next t := by
  intro hstep
  obtain ⟨hhalted, hfaulted⟩ := stoppedMachineTakesNoStep s
  rcases hstopped with hend | ⟨c, hc⟩
  · cases (hhalted hend).symm.trans hstep
  · cases (hfaulted c hc).symm.trans hstep

/-- Settles O58: each step of the run keeps the invariant, and none leaves a stopped state. -/
theorem runsKeepTheInvariantAndEnd : Obligations.RunsKeepTheInvariantAndEnd := by
  intro s t hrun
  induction hrun with
  | refl => exact ⟨id, fun _ => rfl⟩
  | step run hstep ih =>
    obtain ⟨hkeeps, hends⟩ := ih
    refine ⟨fun hinv => stepKeepsTheInvariant _ _ (hkeeps hinv) hstep, fun hstopped => ?_⟩
    rw [hends hstopped] at hstep
    exact absurd hstep (step_ne_next_of_stopped hstopped _)

/-! ### Reset, the load and the offer -/

/-- Settles O50: no cell is listed, the run state is Ready and the trace is empty. -/
theorem resetMeetsTheInvariant : Obligations.ResetMeetsTheInvariant :=
  ⟨⟨List.Pairwise.nil, nofun⟩, nofun, nofun⟩

/-- Settles O52: a load leaves a Ready or Faulted machine with an empty or unchanged trace, and an offer touches neither
memory, run state, `pc`, the trace nor the numbers of channels. -/
theorem environmentKeepsTheInvariant : Obligations.EnvironmentKeepsTheInvariant := by
  refine fun s hinv => ⟨fun image => ⟨State.load_wf hinv.memory image, ?_, ?_⟩, fun i v => ?_⟩
  · intro hhalted
    rcases s.load_cases image with ⟨-, hraise⟩ | ⟨-, -, hready, -⟩
    · rw [hraise] at hhalted
      cases hhalted
    · cases hready.symm.trans hhalted
  · rcases s.load_cases image with ⟨-, hraise⟩ | ⟨-, -, -, -, -, henv⟩
    · rw [hraise]
      exact fun e he => connected_of_eq rfl rfl (hinv.trace e he)
    · rw [henv]
      nofun
  · obtain ⟨e, hoffer, htrace, hlength, hnOut⟩ := offer_eq_withEnv s i v
    rw [hoffer]
    exact ⟨hinv.memory, hinv.halted, fun ev hev =>
      connected_of_eq (s := s) (t := { s with env := e }) hlength hnOut (hinv.trace ev (htrace ▸ hev))⟩

/-- A load of at most 65536 words, written out (rule R140). -/
theorem load_of_length_le {image : List Word} (hfits : image.length ≤ memWords) (s : State) :
    s.load image =
      { s with
        regs := { r0 := 0, r1 := 0, r2 := 0, r3 := 0, sb := Word.ofExact image.length
                  sp := Word.ofExact image.length, pc := resetPc }
        mem := s.mem.storeImage loadBase image
        runState := .ready
        env := { s.env with trace := [] } } :=
  if_neg (Nat.not_lt_of_le hfits)

/-- Memory after a load of at most 65536 words: the image from cell 0 up, the rest as before (rule R140). -/
theorem load_readMem {image : List Word} (hfits : image.length ≤ memWords) (s : State) (a : Word) :
    (s.load image).readMem a = if h : a.toNat < image.length then image[a.toNat] else s.readMem a := by
  rw [load_of_length_le hfits]
  simp only [State.readMem, Memory.lookup_storeImage, loadBase, Nat.zero_add, Nat.zero_le, true_and, Nat.sub_zero]
  split_ifs with hlt
  · rw [List.getElem?_eq_getElem hlt]
  · rfl

/-- Settles O46: the loaded state written out, and its memory cell by cell. -/
theorem loadPlacesTheImage : Obligations.LoadPlacesTheImage := by
  intro s image hfits
  refine ⟨fun a w hw => ?_, fun a ha => ?_, ?_⟩
  · obtain ⟨hlt, rfl⟩ := List.getElem?_eq_some_iff.1 hw
    have haddr : (BitVec.ofNat 16 a).toNat = a := by
      rw [BitVec.toNat_ofNat]
      omega
    simp [load_readMem hfits, haddr, hlt]
  · simp [load_readMem hfits, Nat.not_lt_of_le ha]
  · rw [load_of_length_le hfits]
    refine ⟨?_, rfl, rfl, rfl, rfl, rfl, rfl, rfl⟩
    rintro r (rfl | rfl | rfl | rfl) <;> rfl

/-- Settles O48: of the state before, the loaded state written out names memory, configuration and port groups alone. -/
theorem loadForgetsTheRun : Obligations.LoadForgetsTheRun := by
  intro s t image hfits hmem hcfg henv
  rw [load_of_length_le hfits, load_of_length_le hfits, hmem, hcfg, henv]
  exact ⟨rfl, .inl rfl⟩

/-- Settles O49: reset has the values of the load's rule for no words. -/
theorem resetIsTheLoadOfTheEmptyImage : Obligations.ResetIsTheLoadOfTheEmptyImage :=
  ⟨rfl, fun r => by cases r <;> rfl, rfl, rfl, rfl, rfl, fun _ => rfl⟩

/-! ### Memory -/

/-- Settles O44: the rule of a read after a write. -/
theorem readGivesTheLastWrite : Obligations.ReadGivesTheLastWrite :=
  Machine.State.writeMem_readMem

end Sys2Proof
end

section
/-! SUPPORT. The proofs of the statements about when a slot is fixed and read, and about two operands that name one
location (spec/40_step_and_operands.md rules R75 to R80). -/

namespace Sys2Proof

open Sys2Proof.Machine Sys2Proof.Claims

/-! ### Moments (rules R74 and R75) -/

/-- Operand decoding moves `pc` to `A + k` (rules R12 and R74). -/
theorem resolve_resolve_state (o1 o2 : Operand) (s : State) :
    (resolve o2 (resolve o1 s).2).2 = s.setPc (executePc o1 o2 s) := by
  simp [executePc, BitVec.ofNat_add, BitVec.add_assoc]

@[simp] theorem resolve_derefReg_fst (r : Reg) (s : State) : (resolve (.derefReg r) s).1 = .mem (s.reg r) := rfl

/-- Settles O15: the address of a dereferenced register is taken as its operand is decoded, and every register is read
in the state with `pc = A + k`. -/
theorem slotMomentsFollowTheTable : Obligations.SlotMomentsFollowTheTable := by
  intro o1 o2 s
  simp only [resolve_resolve_state]
  refine ⟨trivial, fun r hr => by simp [hr], ?_, ?_, ?_, ?_, ?_, fun r hr => ⟨?_, ?_⟩⟩
  · rintro rfl
    exact State.setPc_pc s _
  · rintro rfl
    exact State.setPc_pc s _
  · rintro rfl
    rfl
  · rintro rfl hk
    simp [hk]
  · rintro rfl hk
    simp [hk]
  · rintro rfl
    rfl
  · rintro rfl
    simp [hr]

/-- Settles O16: an operand addresses a cell in its two dereferenced forms. -/
theorem storeAddressIsRegisterOrLiteral : Obligations.StoreAddressIsRegisterOrLiteral := by
  intro o s a
  cases o with
  | reg r => simp [resolve]
  | imm v => simp [resolve]
  | derefReg r => simp [resolve, eq_comm]
  | derefImm v => simp [resolve]

/-! ### One location named twice (rule R78) -/

/-- Equal slots hold one value in the execute phase. -/
theorem value2_eq_value1_of_same_slot {o1 o2 : Operand} {s : State}
    (hslot : (resolve o1 s).1 = (resolve o2 (resolve o1 s).2).1) : value2 o1 o2 s = value1 o1 o2 s := by
  rw [resolve_state] at hslot
  rw [← readSlot_resolve_fst, ← readSlot_resolve_snd, hslot]

theorem value1_reg_of_ne_pc {r : Reg} (hr : r ≠ .pc) (o2 : Operand) (s : State) : value1 (.reg r) o2 s = s.reg r := by
  cases r with
  | pc => exact absurd rfl hr
  | _ => rfl

/-- Writing to operand 1 the value it has in the execute phase changes nothing but `pc`. -/
theorem onlyPcMoved_of_written_value1 {o1 o2 : Operand} {s t : State} (h : Written o1 o2 (value1 o1 o2 s) s t) :
    OnlyPcMoved s t ∧ t.pc = executePc o1 o2 s + 1 := by
  refine ⟨⟨fun r hr => ?_, fun b => ?_, h.runState, h.cfg, h.env⟩, ?_⟩
  · rw [h.registers r hr]
    split
    · next hreg =>
      rw [hreg, value1_reg_of_ne_pc hr]
    · rfl
  · by_cases hmem : ∃ a, (resolve o1 s).1 = .mem a
    · obtain ⟨a, ha⟩ := hmem
      obtain ⟨hhere, hothers⟩ := h.stored a ha
      by_cases hb : b = a
      · have hvalue : value1 o1 o2 s = s.readMem a := by
          rw [← readSlot_resolve_fst, ha]
          rfl
        rw [hb, hhere, hvalue]
      · exact hothers b hb
    · exact h.kept (fun a ha => hmem ⟨a, ha⟩) b
  · rw [h.counter]
    split
    · next hreg =>
      subst hreg
      rfl
    · rfl

/-- An instruction that stores the word `w`, however the result is written, writes it. -/
theorem exec_written_of_eq {i : Instr} {o1 o2 : Operand} {v w : Word} {s : State}
    (hexec : exec i s = storeResult o1 o2 v s) (hv : v = w) (htakes : TakesWrite o1 s) :
    ∃ t, exec i s = .next t ∧ Written o1 o2 w s t :=
  hv ▸ exec_written hexec htakes

/-- Settles O17: the two values are one, so each result is that of an operation on `x` and `x`; and the address that a
register gave was taken before the write. -/
theorem sameLocationTwice : Obligations.SameLocationTwice := by
  refine ⟨fun s o1 o2 hslot himm => ?_, fun s r => ⟨?_, ?_⟩⟩
  · have hsame := value2_eq_value1_of_same_slot hslot
    have htakes : TakesWrite o1 s := .inl himm
    refine ⟨hsame, ?mov, ?add, ?sub, ?xor, ?eq, ?leq, ?le, fun hne => ?div, fun hne => ?rem, fun hzero => ?raise⟩
    case mov =>
      obtain ⟨t, hnext, hwritten⟩ := exec_written_of_eq (exec_mov o1 o2 s) hsame htakes
      exact ⟨t, hnext, onlyPcMoved_of_written_value1 hwritten⟩
    case add => exact exec_written_of_eq (exec_add o1 o2 s) (by rw [hsame]; bv_omega) htakes
    case sub => exact exec_written_of_eq (exec_sub o1 o2 s) (by rw [hsame, BitVec.sub_self]) htakes
    case xor => exact exec_written_of_eq (exec_xor o1 o2 s) (by rw [hsame, BitVec.xor_self]) htakes
    case eq => exact exec_written_of_eq (exec_eq o1 o2 s) (if_pos hsame.symm) htakes
    case leq => exact exec_written_of_eq (exec_leq o1 o2 s) (if_pos (by rw [hsame])) htakes
    case le => exact exec_written_of_eq (exec_le o1 o2 s) (if_neg (by rw [hsame]; exact lt_irrefl _)) htakes
    case div =>
      refine exec_written_of_eq ((exec_div o1 o2 s).trans (if_neg (hsame ▸ hne))) ?_ htakes
      rw [hsame, BitVec.udiv_self, if_neg (by simpa using hne)]
    case rem =>
      refine exec_written_of_eq ((exec_rem o1 o2 s).trans (if_neg (hsame ▸ hne))) ?_ htakes
      rw [hsame, BitVec.umod_self]
    case raise =>
      exact ⟨exec_of_zero_divisor (.inl rfl) (hsame.trans hzero), exec_of_zero_divisor (.inr rfl) (hsame.trans hzero)⟩
  · refine exec_written_of_eq (exec_mov (.reg r) (.derefReg r) s) ?_ (.inl nofun)
    cases r with
    | pc => simp [value2]
    | _ => rfl
  · refine exec_written_of_eq (exec_mov (.derefReg r) (.reg r) s) ?_ (.inl nofun)
    cases r with
    | pc => simp [value2, executePc]
    | _ => rfl

end Sys2Proof
end

section
/-! SUPPORT. The proof of the statement about quotient and remainder (spec/41_move_arith.md rule R96). -/

namespace Sys2Proof

open Sys2Proof.Machine Sys2Proof.Claims

/-- Settles O24: a word's quotient and remainder are those of the natural numbers, too small to wrap around. -/
theorem quotientAndRemainderRecombine : Obligations.QuotientAndRemainderRecombine := by
  intro a b hb
  rw [quotientWord_eq_div, remainderWord_eq_mod, BitVec.toNat_udiv, BitVec.toNat_umod]
  exact ⟨(Nat.div_add_mod _ _).symm, Nat.mod_lt _ (Nat.pos_of_ne_zero fun h => hb (BitVec.eq_of_toNat_eq h))⟩

end Sys2Proof
end

section
/-! SUPPORT. The proof that a step does what the pseudocode does (spec/40_step_and_operands.md rules R70 to R79): operand
by operand, arm by arm, then the opcode check. -/

namespace Sys2Proof

open Sys2Proof.Machine Sys2Proof.Claims

/-! ### DecodeOperand (rule R74) -/

/-- The pseudocode decodes an operand's field to the operand's slot, when the word it reads from memory is the operand's
immediate. -/
theorem pseudoDecodeOperand_field {o : Operand} {s : State} (himm : ∀ v ∈ o.immediates, v = s.readMem (s.pc + 1)) :
    pseudoDecodeOperand (BitVec.ofNat 4 o.field) s = resolve o s := by
  cases o with
  | reg r => cases r <;> rfl
  | imm v =>
    obtain rfl := himm v (List.mem_singleton.2 rfl)
    rfl
  | derefReg r => cases r <;> rfl
  | derefImm v =>
    obtain rfl := himm v (List.mem_singleton.2 rfl)
    show pseudoDecodeOperand 15#4 s = _
    rfl

/-- An operand's immediate, if any, is the first of the words that the operand begins, and the others are left. -/
theorem immediates_at_head {o : Operand} {u : Word} {ws rest : List Word} (h : u :: ws = o.immediates ++ rest) :
    (∀ v ∈ o.immediates, v = u) ∧ (if o.k = 1 then ws else u :: ws) = rest := by
  cases o with
  | reg r => exact ⟨nofun, h⟩
  | imm v =>
    obtain ⟨rfl, htail⟩ := List.cons.inj h
    exact ⟨fun x hx => List.mem_singleton.1 hx, htail⟩
  | derefReg r => exact ⟨nofun, h⟩
  | derefImm v =>
    obtain ⟨rfl, htail⟩ := List.cons.inj h
    exact ⟨fun x hx => List.mem_singleton.1 hx, htail⟩

/-- The immediates of two operands that begin two words: operand 1's is the first, operand 2's the next that is left. -/
theorem two_immediates_at_head {o1 o2 : Operand} {u v : Word} {rest : List Word}
    (h : [u, v] = o1.immediates ++ o2.immediates ++ rest) :
    (∀ x ∈ o1.immediates, x = u) ∧ ∀ x ∈ o2.immediates, x = if o1.k = 1 then v else u := by
  rw [List.append_assoc] at h
  obtain ⟨hfirst, hleft⟩ := immediates_at_head h
  refine ⟨hfirst, ?_⟩
  split at hleft
  · next hk => simpa [hk] using (immediates_at_head hleft).1
  · next hk => simpa [hk] using (immediates_at_head hleft).1

/-- The word that operand 2 would consume, after operand 1 has moved `pc` over its own. -/
theorem readMem_after_immediates (o : Operand) (s : State) :
    s.readMem (s.pc + BitVec.ofNat 16 o.k + 1) = if o.k = 1 then s.readMem (s.pc + 2) else s.readMem (s.pc + 1) := by
  have hsum : s.pc + 1 + 1 = s.pc + 2 := by bv_omega
  cases o with
  | reg r => simp
  | imm v => exact congrArg s.readMem hsum
  | derefReg r => simp
  | derefImm v => exact congrArg s.readMem hsum

/-! ### Execute (rule R73) -/

/-- The execute arm of an operation. -/
def arm : Op → Word → Slot → Slot → State → Result
  | .mov => armMov
  | .add => armAdd
  | .sub => armSub
  | .mul => armMul
  | .div => armDiv
  | .rem => armRem
  | .not => armNot
  | .and => armAnd
  | .or => armOr
  | .xor => armXor
  | .eq => armEq
  | .le => armLe
  | .leq => armLeq
  | .jnz => armJnz
  | .inp => armIn
  | .out => armOut

theorem exec_eq_withSlots_arm (i : Instr) (s : State) : exec i s = withSlots i.op1 i.op2 s (arm i.op s.pc) := by
  cases i <;> rfl

section
variable {a : Word} {d x : Slot} {s : State}

theorem pseudoIncrement_ok (t : State) : pseudoIncrement (.ok t) = loopIncrement t := by
  simp [pseudoIncrement, loopIncrement, BitVec.ofNat_add]

/-- `wr` and the loop increment are the write-back (rules R77 and R79). -/
theorem pseudoIncrement_write {n : Nat} {v : Word} (hv : BitVec.ofNat 16 n = v) :
    pseudoIncrement (pseudoWrite a d (BitVec.ofNat 16 n) s) = writeBack a d v s := by
  subst hv
  cases d with
  | reg r => exact pseudoIncrement_ok _
  | mem b => exact pseudoIncrement_ok _
  | imm u =>
    cases hcfg : s.cfg.immWrite with
    | discard => simpa [pseudoWrite, writeBack, hcfg] using pseudoIncrement_ok s
    | fault => simp [pseudoWrite, writeBack, hcfg, pseudoIncrement, takeFault]

/-- The zero check of DIV and REM (rules R94 and R95). -/
theorem pseudoIncrement_divide {f : Word → Word → Word} {n : Nat}
    (hn : BitVec.ofNat 16 n = f (s.readSlot d) (s.readSlot x)) :
    pseudoIncrement (if (s.readSlot x).toNat = 0 then .error (.next (s.raise (.divideByZero a)))
      else pseudoWrite a d (BitVec.ofNat 16 n) s) = divideArm f a d x s := by
  rcases divideArm_cases f a d x s with ⟨hzero, harm⟩ | ⟨hnonzero, harm⟩
  · rw [harm, if_pos (by rw [hzero]; rfl)]
    rfl
  · have htoNat : (s.readSlot x).toNat ≠ 0 := fun h => hnonzero (BitVec.eq_of_toNat_eq h)
    rw [harm, if_neg htoNat]
    exact pseudoIncrement_write hn

/-- The chosen number 1 or 0, as a word. -/
theorem ofNat_ite_eq_b2w {p : Prop} [Decidable p] {c : Bool} (h : c = true ↔ p) :
    BitVec.ofNat 16 (if p then 1 else 0) = b2w c := by
  rw [b2w_eq_ite h]
  split <;> rfl

/-- The jump target less one (rule R110). -/
theorem ofNat_add_65535 (y : Word) : BitVec.ofNat 16 (y.toNat + 65535) = y - 1 := by
  bv_omega

theorem ofNat_add_65536_sub (p q : Word) : BitVec.ofNat 16 (p.toNat + 65536 - q.toNat) = differenceWord p q := by
  rw [differenceWord_eq_sub]
  bv_omega

theorem pseudoExecute_jnz : pseudoIncrement (pseudoExecute .jnz a d x s) = armJnz a d x s := by
  by_cases hzero : s.readSlot d = 0#16
  · simp [pseudoExecute, armJnz, hzero, pseudoIncrement_ok]
  · have htoNat : (s.readSlot d).toNat ≠ 0 := fun h => hzero (BitVec.eq_of_toNat_eq h)
    simp only [pseudoExecute, armJnz, if_neg hzero, if_neg htoNat, pseudoIncrement_ok, ofNat_add_65535]

theorem pseudoExecute_inp : pseudoIncrement (pseudoExecute .inp a d x s) = armIn a d x s := by
  by_cases hout : s.nIn ≤ (s.readSlot x).toNat
  · simp [pseudoExecute, armIn, hout, pseudoIncrement, takeFault]
  · cases hport : s.inPort (s.readSlot x) with
    | none => simp [pseudoExecute, armIn, hout, hport, pseudoIncrement]
    | some p =>
      obtain ⟨v, t⟩ := p
      have hwrite := pseudoIncrement_write (a := a) (d := d) (s := t) (BitVec.ofNat_toNat 16 v)
      simpa [pseudoExecute, armIn, hout, hport] using hwrite

theorem pseudoExecute_out : pseudoIncrement (pseudoExecute .out a d x s) = armOut a d x s := by
  by_cases hout : s.nOut ≤ (s.readSlot d).toNat
  · simp [pseudoExecute, armOut, hout, pseudoIncrement, takeFault]
  · simp [pseudoExecute, armOut, hout, pseudoIncrement_ok]

/-- Each operation's line of the pseudocode, with the loop increment, is its execute arm. -/
theorem pseudoExecute_eq_arm (op : Op) : pseudoIncrement (pseudoExecute op a d x s) = arm op a d x s := by
  cases op with
  | mov => exact pseudoIncrement_write (by simp)
  | add => exact pseudoIncrement_write rfl
  | sub => exact pseudoIncrement_write (ofNat_add_65536_sub _ _)
  | mul => exact pseudoIncrement_write rfl
  | div => exact pseudoIncrement_divide rfl
  | rem => exact pseudoIncrement_divide rfl
  | not => exact pseudoIncrement_write (ofNat_ite_eq_b2w beq_iff_eq)
  | and => exact pseudoIncrement_write (by simp [BitVec.ofNat_and])
  | or => exact pseudoIncrement_write (by simp [BitVec.ofNat_or])
  | xor => exact pseudoIncrement_write (by simp [BitVec.ofNat_xor])
  | eq => exact pseudoIncrement_write (ofNat_ite_eq_b2w beq_iff_eq)
  | le => exact pseudoIncrement_write (ofNat_ite_eq_b2w decide_eq_true_iff)
  | leq => exact pseudoIncrement_write (ofNat_ite_eq_b2w decide_eq_true_iff)
  | jnz => exact pseudoExecute_jnz
  | inp => exact pseudoExecute_inp
  | out => exact pseudoExecute_out

end

/-! ### Step (rule R70) -/

/-- The opcode check on the word itself (rules R55 to R57 and R71). -/
theorem decodeOp_opcodeField (m : List Op) (w : Word) :
    decodeOp m (opcodeField w) = if 0x0F < w.toNat / 256 then none else m[w.toNat / 256]? := by
  rw [decodeOp, (field_values w).1]
  refine if_congr ?_ rfl rfl
  rw [BitVec.lt_def, (field_values w).1]
  rfl

section
variable {s : State} (hpc : s.pc ≠ 0xFFFF#16)
include hpc

/-- The pseudocode's step on a word that selects no operation. -/
theorem pseudoStep_of_decodeOp_eq_none (hop : decodeOp s.cfg.opcodeMap (opcodeField (s.readMem s.pc)) = none) :
    pseudoStep s = .next (s.raise (.illegalOpcode (s.readMem s.pc))) := by
  rw [decodeOp_opcodeField] at hop
  rw [pseudoStep, if_neg hpc]
  split at hop
  · next hbig => exact if_pos hbig
  · next hsmall =>
    simp only [State.setRunState_pc, State.setRunState_readMem, State.setRunState_cfg, if_neg hsmall, hop]
    rfl

/-- The pseudocode's step on a word that selects an operation. -/
theorem pseudoStep_of_decodeOp_eq_some {op : Op}
    (hop : decodeOp s.cfg.opcodeMap (opcodeField (s.readMem s.pc)) = some op) :
    pseudoStep s =
      let t := s.setRunState .running
      let d := pseudoDecodeOperand (BitVec.ofNat 4 ((s.readMem s.pc).toNat / 16 % 16)) t
      let x := pseudoDecodeOperand (BitVec.ofNat 4 ((s.readMem s.pc).toNat % 16)) d.2
      pseudoIncrement (pseudoExecute op s.pc d.1 x.1 x.2) := by
  rw [decodeOp_opcodeField] at hop
  rw [pseudoStep, if_neg hpc]
  split at hop
  · cases hop
  · next hsmall =>
    simp only [State.setRunState_pc, State.setRunState_readMem, State.setRunState_cfg, if_neg hsmall, hop]

/-- The pseudocode's step on words that decode to an instruction runs the instruction. -/
theorem pseudoStep_of_decode {i : Instr} {rest : List Word}
    (hdec : decode s.cfg.opcodeMap s.fetchWords = .ok (i, rest)) : pseudoStep s = exec i (s.setRunState .running) := by
  obtain ⟨hop, hf1, hf2, hwords⟩ := decode_inv hdec
  obtain ⟨-, hv1, hv2⟩ := field_values (s.readMem s.pc)
  obtain ⟨himm1, himm2⟩ := two_immediates_at_head hwords
  have hfirst := pseudoDecodeOperand_field (o := i.op1) (s := s.setRunState .running) himm1
  have hsecond := pseudoDecodeOperand_field (o := i.op2) (s := (resolve i.op1 (s.setRunState .running)).2)
  rw [pseudoStep_of_decodeOp_eq_some hpc hop, ← hv1, ← hv2, ← hf1, ← hf2, exec_eq_withSlots_arm]
  simp only [hfirst]
  rw [hsecond ?_]
  · exact pseudoExecute_eq_arm i.op
  · intro v hv
    rw [himm2 v hv, resolve_state]
    exact (readMem_after_immediates i.op1 s).symm

end

/-- Settles O8: the halt check and the opcode check agree, and past them the instruction the fetch decodes is the one the
pseudocode decodes operand by operand. -/
theorem stepRefinesThePseudocode : Obligations.StepRefinesThePseudocode := by
  intro s henabled
  by_cases hpc : s.pc = 0xFFFF#16
  · rw [step_of_pc_eq_haltPc henabled hpc, pseudoStep, if_pos hpc]
  · have hrun : step s = runInstruction s := (step_eq_haltOrRun henabled).trans (if_neg hpc)
    rcases decode_three_words s.cfg.opcodeMap (s.readMem s.pc) (s.readMem (s.pc + 1)) (s.readMem (s.pc + 2)) with
      ⟨hop, hdec⟩ | ⟨i, rest, -, hdec⟩
    · rw [hrun, pseudoStep_of_decodeOp_eq_none hpc hop]
      rcases runInstruction_cases s with ⟨i, hok, -⟩ | ⟨e, -, hraise⟩
      · obtain ⟨rest, hok⟩ := fetch_eq_ok_iff.1 hok
        cases hok.symm.trans hdec
      · exact hraise
    · rw [pseudoStep_of_decode hpc hdec]
      exact stepRunsTheDecodedInstruction s i rest henabled hpc hdec

end Sys2Proof
end
